-- ==== Sys2Proof/Word.lean ====
section
/-! DEFINITION. The bit-vector types of the block: the `u8`, `i8` of a record field or byte register and the
32-bit pattern of a payload, an `i32` or an `f32` (00_scope.md R7; 10_state.md R20). -/

namespace Sys2Proof

/-- `u8` or `i8` (R7): a record field, a cursor, a byte register. -/
abbrev Byte := BitVec 8

/-- `u32`, `i32` or `f32` (R7): one 32-bit pattern, read as the rule that uses it says. -/
abbrev Word := BitVec 32

/-- The 64-bit number `W` of one whole record (20_memory.md R62). -/
abbrev RecWord := BitVec 64

/-- `PLAYER_COUNT` of R4 when nothing else is chosen. -/
def defaultPlayerCount : Nat := 4

/-- `TICKS_PER_BEAT` of R4 when nothing else is chosen. -/
def defaultTicksPerBeat : Nat := 48

end Sys2Proof
end

