-- ==== Sys2Proof/Machine/Sequencer.lean ====
section
/-! DEFINITION. The sequencer registers: the player file `P[p]` and the channel file `CH[p][c]`
(10_state.md R30 to R33), with the reset values of R36. -/

namespace Sys2Proof.Machine

/-- `P[p].state` (R31), an enumeration. -/
inductive PlayState where
  | stopped
  | fadingIn
  | fadingOut
  | playing
  deriving DecidableEq, Repr, Inhabited

/-- The code R31 assigns to each state. -/
def PlayState.code : PlayState → BitVec 2
  | .stopped => 0
  | .fadingIn => 1
  | .fadingOut => 2
  | .playing => 3

/-- `CH[p][c].changes`, three named flags (R33). -/
structure Changes where
  volume    : Bool
  pan       : Bool
  freqScale : Bool
  deriving DecidableEq, Repr, Inhabited

/-- The packed byte of R33: bit 0 volume, bit 1 pan, bit 2 freqScale, bits 7:3 zero. -/
def Changes.pack (c : Changes) : Byte :=
  0#5 ++ BitVec.ofBool c.freqScale ++ BitVec.ofBool c.pan ++ BitVec.ofBool c.volume

/-- The registers of one present channel (R32). -/
structure Channel where
  volumeScale : Word
  volume      : Word
  pan         : Byte
  freqScale   : Word
  reverbVol   : Byte
  scriptIO    : Vector Byte 8
  stopFlag    : Byte
  changes     : Changes
  deriving DecidableEq, Repr, Inhabited

/-- One sequence player with the channels it owns (R30, R32).
`CH[p][c]` is `chans[c]`; an absent channel is `none`, as R32 allows ("a model may store them as none"), so
`chanPresent[c]` is whether it is `some`. -/
structure Player where
  enabled         : Bool
  state           : PlayState
  muted           : Bool
  volDirty        : Bool
  fadeVolume      : Word
  fadeVolumeScale : Word
  fadeVelocity    : Word
  fadeRemaining   : Word
  tempo           : Word
  transposition   : Byte
  variation       : Vector Byte 256
  chans           : Vector (Option Channel) 16
  deriving DecidableEq, Repr, Inhabited

/-- `CH[p][c]` where `c` is any byte: `none` for an absent channel and for an index of 16 or more. -/
def Player.chan? (P : Player) (c : Byte) : Option Channel :=
  if h : c.toNat < 16 then P.chans[c.toNat] else none

/-- `P[p].chanPresent[c]` (R30, R32). -/
def Player.chanPresent (P : Player) (c : Byte) : Bool := (P.chan? c).isSome

/-- A channel right after a loader made it with every register 0 and no `changes` bit set (the channels of
state L in 95_test_vectors.md; R36 "if stored, all zero"). -/
def Channel.zero : Channel where
  volumeScale := 0
  volume := 0
  pan := 0
  freqScale := 0
  reverbVol := 0
  scriptIO := Vector.replicate 8 0
  stopFlag := 0
  changes := ⟨false, false, false⟩

/-- The reset values of one player (R36). -/
def Player.reset : Player where
  enabled := false
  state := .stopped
  muted := false
  volDirty := false
  fadeVolume := 0
  fadeVolumeScale := 0
  fadeVelocity := 0
  fadeRemaining := 0
  tempo := 0
  transposition := 0
  variation := Vector.replicate 256 0
  chans := Vector.replicate 16 none

end Sys2Proof.Machine
end

