-- ==== Sys2Proof/Syntax.lean ====
section
/-! DEFINITION. The instructions: one constructor of `Instr` for every row of spec/opcode_table.json
(30_encoding.md R84, R85, R90), the record they are fields of (R80), the four opcode classes (R81), and the
assembler forms of R88. -/

namespace Sys2Proof

/-- The four fields of a command record beside its opcode (30_encoding.md R80). -/
structure Args where
  target  : Byte
  arg2    : Byte
  arg3    : Byte
  payload : Word
  deriving DecidableEq, Repr, Inhabited

/-- A command record: the five fields of R80. -/
structure Rec extends Args where
  opcode : Byte
  deriving DecidableEq, Repr, Inhabited

/-- The record with opcode `op` and the other fields `a`. -/
def Args.withOpcode (a : Args) (op : Byte) : Rec := { a with opcode := op }

/-- One constructor per row of spec/opcode_table.json.
A command keeps all four of its record's fields, the ignored ones too, so that no bit of a record is lost by
decoding it; a class row (`RSVD_…`) keeps its opcode as well. The four `PORT` rows are the transactions of
40_queue_ops.md, which are not encoded as records. -/
inductive Instr where
  | nop (a : Args)
  | chVolscale (a : Args)
  | chVolume (a : Args)
  | chPan (a : Args)
  | chFreqscale (a : Args)
  | chReverb (a : Args)
  | chScriptio (a : Args)
  | rsvdChan07 (a : Args)
  | chStop (a : Args)
  | plFadevolscale (a : Args)
  | plVariation (a : Args)
  | plTempo (a : Args)
  | plTranspose (a : Args)
  | plPreload (a : Args)
  | plLoadfadein (a : Args)
  | plStopfade (a : Args)
  | plLoadfadeinB (a : Args)
  | gSoundmode (a : Args)
  | gMuteall (a : Args)
  | gUnmuteall (a : Args)
  | gMisc (a : Args)
  | rsvdGlobal (op : Byte) (a : Args)
  | rsvdMgmt (op : Byte) (a : Args)
  | rsvdParam (op : Byte) (a : Args)
  | rsvdChan (op : Byte) (a : Args)
  | enq (r : Rec)
  | pub
  | poll
  | step
  deriving DecidableEq, Repr

/-- The classes of R81, and the transactions, which have none. -/
inductive OpClass where
  | global
  | management
  | parameter
  | channel
  | transaction
  deriving DecidableEq, Repr

/-- The class column of spec/opcode_table.json. -/
def Instr.opClass : Instr → OpClass
  | .nop _ => .channel
  | .chVolscale _ => .channel
  | .chVolume _ => .channel
  | .chPan _ => .channel
  | .chFreqscale _ => .channel
  | .chReverb _ => .channel
  | .chScriptio _ => .channel
  | .rsvdChan07 _ => .channel
  | .chStop _ => .channel
  | .plFadevolscale _ => .parameter
  | .plVariation _ => .parameter
  | .plTempo _ => .parameter
  | .plTranspose _ => .parameter
  | .plPreload _ => .management
  | .plLoadfadein _ => .management
  | .plStopfade _ => .management
  | .plLoadfadeinB _ => .management
  | .gSoundmode _ => .global
  | .gMuteall _ => .global
  | .gUnmuteall _ => .global
  | .gMisc _ => .global
  | .rsvdGlobal _ _ => .global
  | .rsvdMgmt _ _ => .management
  | .rsvdParam _ _ => .parameter
  | .rsvdChan _ _ => .channel
  | .enq _ => .transaction
  | .pub => .transaction
  | .poll => .transaction
  | .step => .transaction

/-- The four operand fields of a command; a transaction has none. -/
def Instr.args? : Instr → Option Args
  | .nop a => some a
  | .chVolscale a => some a
  | .chVolume a => some a
  | .chPan a => some a
  | .chFreqscale a => some a
  | .chReverb a => some a
  | .chScriptio a => some a
  | .rsvdChan07 a => some a
  | .chStop a => some a
  | .plFadevolscale a => some a
  | .plVariation a => some a
  | .plTempo a => some a
  | .plTranspose a => some a
  | .plPreload a => some a
  | .plLoadfadein a => some a
  | .plStopfade a => some a
  | .plLoadfadeinB a => some a
  | .gSoundmode a => some a
  | .gMuteall a => some a
  | .gUnmuteall a => some a
  | .gMisc a => some a
  | .rsvdGlobal _ a => some a
  | .rsvdMgmt _ a => some a
  | .rsvdParam _ a => some a
  | .rsvdChan _ a => some a
  | .enq _ => none
  | .pub => none
  | .poll => none
  | .step => none

/-- The command forms of the spec's assembler (R88): `p` a player, `c` a channel, `i` an index, `b` a byte,
`f` a float pattern, `n` a number. -/
inductive Asm where
  | cmd (op target arg2 arg3 : Byte) (payload : Word)
  | chVolscale (p c : Byte) (f : Word)
  | chVolume (p c : Byte) (f : Word)
  | chPan (p c b : Byte)
  | chFreqscale (p c : Byte) (f : Word)
  | chReverb (p c b : Byte)
  | chScriptio (p c i b : Byte)
  | chStop (p c b : Byte)
  | plFadevolscale (p : Byte) (f : Word)
  | plVariation (p i b : Byte)
  | plTempo (p : Byte) (n : Word)
  | plTranspose (p b : Byte)
  | plPreload (p a2 a3 : Byte) (n : Word)
  | plLoadfadein (p a2 a3 : Byte) (n : Word)
  | plLoadfadeinB (p a2 a3 : Byte) (n : Word)
  | plStopfade (p : Byte) (n : Word)
  | gSoundmode (n : Word)
  | gMuteall
  | gUnmuteall
  | gMisc (p a2 a3 : Byte) (n : Word)
  | nop
  deriving DecidableEq, Repr

/-- One line of a batch is one transaction (R88). -/
inductive AsmLine where
  | enq (c : Asm)
  | pub
  | poll
  | step
  deriving DecidableEq, Repr

end Sys2Proof
end

