-- ==== Sys2Proof/Config.lean ====
section
/-! DEFINITION. What is fixed for one machine and not stated by the spec: the hooks, oracle functions of
42_player_mgmt_cmds.md R147, and the bits of a NaN that IEEE 754 leaves open (00_scope.md R9). All of them are
constants without a body: nothing can be proved of their values.
(The open parameters `PLAYER_COUNT` and `TICKS_PER_BEAT` of R4 stand in `State`, log entry 4.) -/

namespace Sys2Proof.Config

/-- `ext_preload(rec)` (R147): the new value of `P[p]`, with its channels, from the record and the current
player file. -/
opaque extPreload : Rec → List Machine.Player → Nat → Machine.Player

/-- `ext_load(rec)` (R147). -/
opaque extLoad : Rec → List Machine.Player → Nat → Machine.Player

/-- `ext_stop(p)` (R147). -/
opaque extStop : Byte → List Machine.Player → Nat → Machine.Player

/-- `ext_misc(rec)` (R147). -/
opaque extMisc : Rec → List Machine.Player → Nat → Machine.Player

/-- The sign of the NaN a division of these operands gives (log entry 9). -/
opaque nanSign : Word → Word → Bool

/-- One less than the fraction of the NaN a division of these operands gives: the fraction is any value but 0
(log entry 9). -/
opaque nanFraction : Word → Word → Fin 8388607

end Sys2Proof.Config
end

