-- ==== Sys2Proof/WellFormed.lean ====
section
/-! DEFINITION. Which terms of `Instr` stand for instructions: a reserved row holds only the opcodes that
30_encoding.md R85 lists for it. Every other field takes every value. -/

namespace Sys2Proof

/-- R85: `0xF4` to `0xFF`. -/
def isReservedGlobal (op : Byte) : Bool := decide (0xF4#8 ≤ op)

/-- R85: `0x80`, `0x84` to `0x87`, `0x89` to `0xEF`. -/
def isReservedManagement (op : Byte) : Bool :=
  decide (op = 0x80#8) || decide (0x84#8 ≤ op ∧ op ≤ 0x87#8) || decide (0x89#8 ≤ op ∧ op ≤ 0xEF#8)

/-- R85: `0x40`, `0x42` to `0x45`, `0x49` to `0x7F`. -/
def isReservedParameter (op : Byte) : Bool :=
  decide (op = 0x40#8) || decide (0x42#8 ≤ op ∧ op ≤ 0x45#8) || decide (0x49#8 ≤ op ∧ op ≤ 0x7F#8)

/-- R85: `0x09` to `0x3F` (`0x00` and `0x07` are rows of their own). -/
def isReservedChannel (op : Byte) : Bool := decide (0x09#8 ≤ op ∧ op ≤ 0x3F#8)

/-- The instruction is one that some record, or some port, can present. -/
def Instr.wf : Instr → Bool
  | .nop _ => true
  | .chVolscale _ => true
  | .chVolume _ => true
  | .chPan _ => true
  | .chFreqscale _ => true
  | .chReverb _ => true
  | .chScriptio _ => true
  | .rsvdChan07 _ => true
  | .chStop _ => true
  | .plFadevolscale _ => true
  | .plVariation _ => true
  | .plTempo _ => true
  | .plTranspose _ => true
  | .plPreload _ => true
  | .plLoadfadein _ => true
  | .plStopfade _ => true
  | .plLoadfadeinB _ => true
  | .gSoundmode _ => true
  | .gMuteall _ => true
  | .gUnmuteall _ => true
  | .gMisc _ => true
  | .rsvdGlobal op _ => isReservedGlobal op
  | .rsvdMgmt op _ => isReservedManagement op
  | .rsvdParam op _ => isReservedParameter op
  | .rsvdChan op _ => isReservedChannel op
  | .enq _ => true
  | .pub => true
  | .poll => true
  | .step => true

end Sys2Proof
end

