-- ==== Sys2Proof/Decode.lean ====
section
/-! DEFINITION. Decoding and encoding of records: the byte order of 20_memory.md R62, the fields of
30_encoding.md R80, the first-match opcode map of R81, R84, R85 and R90, and the assembler forms of R88. -/

namespace Sys2Proof

/-- Why bytes hold no instruction: every one of the 256 opcodes decodes (R85), so only a list shorter than one
record is turned away. -/
inductive DecodeError where
  /-- Fewer than the 8 bytes of a record; `have_` is how many there are. -/
  | truncatedRecord (have_ : Nat)
  deriving DecidableEq, Repr

/-! ## The record as a number and as bytes -/

/-- `W` of R62: opcode, target, arg2, arg3, payload, the most significant first. -/
def Rec.toWord (r : Rec) : RecWord := r.opcode ++ r.target ++ r.arg2 ++ r.arg3 ++ r.payload

/-- The fields of `W` at the bit positions of R80. -/
def Rec.ofWord (w : RecWord) : Rec where
  opcode := w.extractLsb' 56 8
  target := w.extractLsb' 48 8
  arg2 := w.extractLsb' 40 8
  arg3 := w.extractLsb' 32 8
  payload := w.extractLsb' 0 32

/-- The eight bytes of a slot, lowest address first (R62: the payload's most significant byte is byte 4). -/
def Rec.toBytes (r : Rec) : List Byte :=
  [r.opcode, r.target, r.arg2, r.arg3, r.payload.extractLsb' 24 8, r.payload.extractLsb' 16 8,
    r.payload.extractLsb' 8 8, r.payload.extractLsb' 0 8]

/-- The record whose slot holds the bytes `b0` to `b7` (R62). -/
def Rec.ofEight (b0 b1 b2 b3 b4 b5 b6 b7 : Byte) : Rec where
  opcode := b0
  target := b1
  arg2 := b2
  arg3 := b3
  payload := b4 ++ b5 ++ b6 ++ b7

/-- The first record of a list of bytes and the bytes after it. -/
def Rec.ofBytes : List Byte → Except DecodeError (Rec × List Byte)
  | b0 :: b1 :: b2 :: b3 :: b4 :: b5 :: b6 :: b7 :: rest => .ok (Rec.ofEight b0 b1 b2 b3 b4 b5 b6 b7, rest)
  | bs => .error (.truncatedRecord bs.length)

/-! ## The decoder -/

/-- The first row of spec/opcode_table.json whose `(W AND mask) == match` (R90): the exact opcodes of R84, then
the four class rows in the order of R81. Every record has one (R85). -/
def decodeFields (op : Byte) (a : Args) : Instr :=
  if op = 0x00#8 then .nop a
  else if op = 0x01#8 then .chVolscale a
  else if op = 0x02#8 then .chVolume a
  else if op = 0x03#8 then .chPan a
  else if op = 0x04#8 then .chFreqscale a
  else if op = 0x05#8 then .chReverb a
  else if op = 0x06#8 then .chScriptio a
  else if op = 0x07#8 then .rsvdChan07 a
  else if op = 0x08#8 then .chStop a
  else if op = 0x41#8 then .plFadevolscale a
  else if op = 0x46#8 then .plVariation a
  else if op = 0x47#8 then .plTempo a
  else if op = 0x48#8 then .plTranspose a
  else if op = 0x81#8 then .plPreload a
  else if op = 0x82#8 then .plLoadfadein a
  else if op = 0x83#8 then .plStopfade a
  else if op = 0x88#8 then .plLoadfadeinB a
  else if op = 0xF0#8 then .gSoundmode a
  else if op = 0xF1#8 then .gMuteall a
  else if op = 0xF2#8 then .gUnmuteall a
  else if op = 0xF3#8 then .gMisc a
  else if op &&& 0xF0#8 = 0xF0#8 then .rsvdGlobal op a
  else if op &&& 0x80#8 = 0x80#8 then .rsvdMgmt op a
  else if op &&& 0xC0#8 = 0x40#8 then .rsvdParam op a
  else .rsvdChan op a

/-- The instruction a record is. -/
def decodeRec (r : Rec) : Instr := decodeFields r.opcode r.toArgs

/-- The instruction at the head of a list of bytes, and the bytes after its record. -/
def decode (bs : List Byte) : Except DecodeError (Instr × List Byte) :=
  match Rec.ofBytes bs with
  | .ok (r, rest) => .ok (decodeRec r, rest)
  | .error e => .error e

/-! ## The encoder -/

/-- The record of a command (R84, R85); a transaction has none (R90). -/
def encodeRec : Instr → Option Rec
  | .nop a => some (a.withOpcode 0x00)
  | .chVolscale a => some (a.withOpcode 0x01)
  | .chVolume a => some (a.withOpcode 0x02)
  | .chPan a => some (a.withOpcode 0x03)
  | .chFreqscale a => some (a.withOpcode 0x04)
  | .chReverb a => some (a.withOpcode 0x05)
  | .chScriptio a => some (a.withOpcode 0x06)
  | .rsvdChan07 a => some (a.withOpcode 0x07)
  | .chStop a => some (a.withOpcode 0x08)
  | .plFadevolscale a => some (a.withOpcode 0x41)
  | .plVariation a => some (a.withOpcode 0x46)
  | .plTempo a => some (a.withOpcode 0x47)
  | .plTranspose a => some (a.withOpcode 0x48)
  | .plPreload a => some (a.withOpcode 0x81)
  | .plLoadfadein a => some (a.withOpcode 0x82)
  | .plStopfade a => some (a.withOpcode 0x83)
  | .plLoadfadeinB a => some (a.withOpcode 0x88)
  | .gSoundmode a => some (a.withOpcode 0xF0)
  | .gMuteall a => some (a.withOpcode 0xF1)
  | .gUnmuteall a => some (a.withOpcode 0xF2)
  | .gMisc a => some (a.withOpcode 0xF3)
  | .rsvdGlobal op a => some (a.withOpcode op)
  | .rsvdMgmt op a => some (a.withOpcode op)
  | .rsvdParam op a => some (a.withOpcode op)
  | .rsvdChan op a => some (a.withOpcode op)
  | .enq _ => none
  | .pub => none
  | .poll => none
  | .step => none

/-- The eight bytes of a command as a slot of the ring holds them. -/
def encode (i : Instr) : Option (List Byte) := (encodeRec i).map Rec.toBytes

/-! ## The table's own numbering -/

/-- The record of an instruction given as the table numbers it: one 64-bit number, bit 0 its least significant,
the opcode in bits 63:56 (R90); bits from `nbits` up are 0. -/
def tableRecord (nbits w : Nat) : Rec := Rec.ofWord (BitVec.ofNat 64 (w % 2 ^ nbits))

/-- What the decoder reads from a table word, laid out as a slot of the ring holds it. -/
def decodeTableWord (nbits w : Nat) : Option Instr :=
  if nbits ≤ 64 then
    match decode (tableRecord nbits w).toBytes with
    | .ok (i, []) => some i
    | _ => none
  else none

/-! ## The assembler of R88 -/

/-- `b << 24`: a byte operand in the payload's byte lane (R82, R88). -/
def byteLane (b : Byte) : Word := b ++ 0#24

/-- The record each form encodes; fields a form does not name are 0 (R88). -/
def Asm.record : Asm → Rec
  | .cmd op tg a2 a3 pl => Args.withOpcode ⟨tg, a2, a3, pl⟩ op
  | .chVolscale p c f => Args.withOpcode ⟨p, c, 0, f⟩ 0x01
  | .chVolume p c f => Args.withOpcode ⟨p, c, 0, f⟩ 0x02
  | .chPan p c b => Args.withOpcode ⟨p, c, 0, byteLane b⟩ 0x03
  | .chFreqscale p c f => Args.withOpcode ⟨p, c, 0, f⟩ 0x04
  | .chReverb p c b => Args.withOpcode ⟨p, c, 0, byteLane b⟩ 0x05
  | .chScriptio p c i b => Args.withOpcode ⟨p, c, i, byteLane b⟩ 0x06
  | .chStop p c b => Args.withOpcode ⟨p, c, 0, byteLane b⟩ 0x08
  | .plFadevolscale p f => Args.withOpcode ⟨p, 0, 0, f⟩ 0x41
  | .plVariation p i b => Args.withOpcode ⟨p, 0, i, byteLane b⟩ 0x46
  | .plTempo p n => Args.withOpcode ⟨p, 0, 0, n⟩ 0x47
  | .plTranspose p b => Args.withOpcode ⟨p, 0, 0, byteLane b⟩ 0x48
  | .plPreload p a2 a3 n => Args.withOpcode ⟨p, a2, a3, n⟩ 0x81
  | .plLoadfadein p a2 a3 n => Args.withOpcode ⟨p, a2, a3, n⟩ 0x82
  | .plLoadfadeinB p a2 a3 n => Args.withOpcode ⟨p, a2, a3, n⟩ 0x88
  | .plStopfade p n => Args.withOpcode ⟨p, 0, 0, n⟩ 0x83
  | .gSoundmode n => Args.withOpcode ⟨0, 0, 0, n⟩ 0xF0
  | .gMuteall => Args.withOpcode ⟨0, 0, 0, 0⟩ 0xF1
  | .gUnmuteall => Args.withOpcode ⟨0, 0, 0, 0⟩ 0xF2
  | .gMisc p a2 a3 n => Args.withOpcode ⟨p, a2, a3, n⟩ 0xF3
  | .nop => Args.withOpcode ⟨0, 0, 0, 0⟩ 0x00

/-- The transaction a line of a batch is (R88). -/
def AsmLine.transaction : AsmLine → Instr
  | .enq c => .enq c.record
  | .pub => .pub
  | .poll => .poll
  | .step => .step

end Sys2Proof
end

