-- ==== Sys2Proof/Machine/State.lean ====
section
/-! DEFINITION. The state of the block (10_state.md R20), its reset value (R36, 70_reset_and_hazards.md R230),
and the outcomes a step has beside a next state. -/

namespace Sys2Proof.Machine

/-- The ring's 2048 bytes (20_memory.md R60, R61), as the bytes that are not 0, by rising address
(`Memory.wf`). A byte that is not listed is 0, its reset value (R36). -/
abbrev Memory := List Host.Cell

/-- A message of the publish mailbox (R26): `start` is `pub`, `stop` the rule's `end`, the value of `wr`. -/
structure Msg where
  full  : Bool
  start : Byte
  stop  : Byte
  deriving DecidableEq, Repr

/-- One write of the external writer (R38), to a whole player with its channels or to one channel.
Any write to `P[*]` and `CH[*][*]` is a list of these. -/
inductive ExtWrite where
  | player (p : Byte) (v : Player)
  | channel (p c : Byte) (v : Option Channel)
  deriving DecidableEq, Repr

/-- The labels of the transition system (00_scope.md R5, R6): what the producer, the consumer, the external
writer and the reset input can do to the block. -/
inductive Event where
  | enq (r : Rec)
  | pub
  | poll
  | step
  | ext (ws : List ExtWrite)
  | reset
  deriving DecidableEq, Repr

/-- The state of the block, group by group as R20 lists it, and the model's own two last fields. -/
structure State where
  /-- `ring[0..255]`, five fields each (R21). -/
  ring : Memory
  /-- Write cursor (R22). -/
  wr : Byte
  /-- Last published cursor (R23). -/
  pub : Byte
  /-- Full-range flag (R24). -/
  lap : Bool
  /-- High-water mark (R25). -/
  hwm : Byte
  /-- Publish mailbox, the oldest message first (R26). -/
  mbox : List Msg
  /-- Drain in progress (R28). -/
  active : Bool
  /-- Read cursor, the program counter (R27). -/
  rd : Byte
  /-- Slots left in the current range (R28). -/
  rem : BitVec 9
  /-- Sound mode (R29). -/
  soundMode : Word
  /-- `P[0..PLAYER_COUNT-1]` with their channels (R30, R32); its length is `PLAYER_COUNT`. -/
  players : List Player
  /-- The parameter `TICKS_PER_BEAT` (R4). No transition changes it. The model's own field (log entry 4). -/
  ticksPerBeat : Nat
  /-- What the agents do next, in the order in which they do it (R6, R68): the schedule.
  The model's own field (log entry 1). -/
  inputs : List Event
  deriving DecidableEq, Repr

/-- Why the machine would stop. There is no such reason: the block raises nothing, and "a model should give STEP,
ENQ, PUB and POLL no fault outcome" (60_exceptions.md R200). -/
inductive Fault where
  deriving DecidableEq, Repr

/-- Why the model would turn an instruction away. -/
inductive Refusal where
  /-- The instruction has no meaning yet; only an arm of `exec` could answer it, and none does. Safe. -/
  | notModelled (mnemonic : String)
  deriving DecidableEq, Repr

/-- The answer of a meaning and of a step. -/
abbrev Result := Host.Outcome State Fault Refusal

/-- `PLAYER_COUNT` (R4): how many players the block has. -/
def State.playerCount (s : State) : Nat := s.players.length

/-- RESET's values (R36) in a machine of `players` players and `ticks` ticks per beat, before the inputs `es`. -/
def State.resetWith (players ticks : Nat) (es : List Event) : State where
  ring := []
  wr := 0
  pub := 0
  lap := false
  hwm := 0
  mbox := []
  active := false
  rd := 0
  rem := 0
  soundMode := 0
  players := List.replicate players Player.reset
  ticksPerBeat := ticks
  inputs := es

/-- The machine right after RESET (R36, R230), with the default parameters of R4 and nothing waiting at its
ports. -/
def State.reset : State := State.resetWith defaultPlayerCount defaultTicksPerBeat []

end Sys2Proof.Machine
end

