-- ==== Sys2Proof/Machine/Flags.lean ====
section
/-! DEFINITION. The one-bit and counter computations of the block: `lap`, `hwm`, `rem`, `active` and the dirty
bits (10_state.md R24, R25, R28, R33, R34). The block has no arithmetic condition codes (R34). -/

namespace Sys2Proof.Machine

/-- `lap` after an ENQ, from the new `wr` (R24, R100). -/
def lapAfterEnq (newWr pub : Byte) : Bool := decide (newWr = pub)

/-- The unpublished depth `(wr - pub) mod 256` (R25, R101). -/
def pendingDepth (wr pub : Byte) : Byte := wr - pub

/-- `hwm` after a PUB of that depth: the larger of the two, unsigned (R101). -/
def hwmAfterPub (hwm depth : Byte) : Byte := if hwm < depth then depth else hwm

/-- How many slots a message's range has: 256 if `full`, else `(end - start) mod 256` (R87, R103). -/
def Msg.count (m : Msg) : BitVec 9 := if m.full then 256#9 else (m.stop - m.start).setWidth 9

/-- A drain goes on while slots are left (R103, R104). -/
def activeFor (rem : BitVec 9) : Bool := decide (rem ≠ 0)

/-- `rem` after a STEP: 0 on an early exit, else one less (R104, R106). -/
def remAfterStep (term : Bool) (rem : BitVec 9) : BitVec 9 := if term then 0 else rem - 1

/-- Opcodes 1 and 2 set `changes.volume` (R180). -/
def Changes.markVolume (c : Changes) : Changes := { c with volume := true }

/-- Opcode 3 sets `changes.pan` (R180). -/
def Changes.markPan (c : Changes) : Changes := { c with pan := true }

/-- Opcode 4 sets `changes.freqScale` (R180). -/
def Changes.markFreqScale (c : Changes) : Changes := { c with freqScale := true }

/-- `P[p].volDirty`, set by 0x41 (R161). -/
def Player.markVolDirty (P : Player) : Player := { P with volDirty := true }

end Sys2Proof.Machine
end

