-- ==== Sys2Proof/Machine/Operands.lean ====
section
/-! DEFINITION. Operand forms: the payload views of 30_encoding.md R82, the gates of R81, and the packed message
word of R87. -/

namespace Sys2Proof.Machine

/-! ## Payload views (R82) -/

/-- `asFloat`: the 32 bits, unchanged. -/
def asFloat (payload : Word) : Word := payload

/-- `asInt32`: the 32 bits, unchanged; the number they stand for is `BitVec.toInt`. -/
def asInt32 (payload : Word) : Word := payload

/-- `asUint32`: the 32 bits, unchanged; the raw copy of opcode 0xF0. -/
def asUint32 (payload : Word) : Word := payload

/-- `asSignedByte`: `payload[31:24]` (`PAYLOAD_BYTE_LANE = MSB`, R4). -/
def asSignedByte (payload : Word) : Byte := payload.extractLsb' 24 8

/-! ## Gates (R81, R105, R170) -/

/-- `target < PLAYER_COUNT`. -/
def playerExists (s : State) (p : Byte) : Bool := decide (p.toNat < s.playerCount)

/-- `P[p].enabled`; false where there is no player `p`. -/
def playerEnabled (s : State) (p : Byte) : Bool := (s.players[p.toNat]?.map Player.enabled).getD false

/-- `P[p].chanPresent[c]`; false where there is no player `p` or `c` is 16 or more. -/
def channelPresent (s : State) (p c : Byte) : Bool :=
  (s.players[p.toNat]?.map (Player.chanPresent · c)).getD false

/-- The channel class's gate, its four conditions in the order of R170. -/
def channelGate (s : State) (a : Args) : Bool :=
  playerExists s a.target && playerEnabled s a.target && decide (a.arg2.toNat < 16)
    && channelPresent s a.target a.arg2

/-! ## The message word (R87, R208) -/

/-- `M`: `end` in bits 7:0, `start` in 15:8, `full` in bit 16, zero above. -/
def Msg.pack (m : Msg) : Word := 0#15 ++ BitVec.ofBool m.full ++ m.start ++ m.stop

/-- The consumer's unpacking of a message word. -/
def Msg.unpack (w : Word) : Msg where
  full := w.getLsbD 16
  start := w.extractLsb' 8 8
  stop := w.extractLsb' 0 8

/-- The mailbox's status outputs (R208): the message words, entry 0 the oldest. -/
def mboxWords (s : State) : List Word := s.mbox.map Msg.pack

/-- The slots enqueued and not yet published: all 256 when `lap` is 1 (R23, R24). -/
def pendingCount (s : State) : Nat := if s.lap then 256 else (pendingDepth s.wr s.pub).toNat

/-- The end of the current range, which R28 says is not stored. -/
def rangeEnd (s : State) : Byte := s.rd + s.rem.setWidth 8

end Sys2Proof.Machine
end

