-- ==== Sys2Proof/Machine/Ops.lean ====
section
/-! DEFINITION. The named operations over the ring, the player and channel files and the drain state, which every
meaning is written over. The block takes no exception and returns from none (60_exceptions.md R200, R204, R205),
so there is no such operation here; what ends a command instead is `retire`, with the early exit of R106. -/

namespace Sys2Proof.Machine

/-! ## The ring's bytes (00_scope.md R8; 20_memory.md R61, R62) -/

/-- One byte; a byte that is not listed is 0. -/
def Memory.read : Memory → Nat → Byte
  | [], _ => 0
  | (a, b) :: m, x => if a = x then b else Memory.read m x

/-- The listed bytes at other addresses. -/
def Memory.unlist (m : Memory) (x : Nat) : Memory := m.filter fun c => decide (c.1 ≠ x)

/-- A byte listed at its place in the rising order. -/
def Memory.enlist : Memory → Nat → Byte → Memory
  | [], x, v => [(x, v)]
  | (a, b) :: m, x, v => if x < a then (x, v) :: (a, b) :: m else (a, b) :: Memory.enlist m x v

/-- One byte stored, the canonical form kept: a 0 is not listed. -/
def Memory.write (m : Memory) (x : Nat) (v : Byte) : Memory :=
  if v = 0 then m.unlist x else (m.unlist x).enlist x v

/-- Every listed byte lies at or above `lo` and below the ring's 2048, is not 0, and addresses rise strictly. -/
def Memory.wfFrom : Memory → Nat → Bool
  | [], _ => true
  | (a, b) :: m, lo => decide (lo ≤ a ∧ a < 2048 ∧ b ≠ 0) && Memory.wfFrom m (a + 1)

/-- The canonical form of the ring's memory. -/
def Memory.wf (m : Memory) : Bool := Memory.wfFrom m 0

/-- The `n` bytes from `addr` on, lowest address first: what `MemRead(addr, n)` reads (R8). -/
def Memory.readBytes (m : Memory) (addr : Nat) : Nat → List Byte
  | 0 => []
  | n + 1 => Memory.read m addr :: Memory.readBytes m (addr + 1) n

/-- The bytes stored from `addr` on: `MemWrite` (R8). -/
def Memory.writeBytes (m : Memory) (addr : Nat) : List Byte → Memory
  | [] => m
  | b :: bs => Memory.writeBytes (Memory.write m addr b) (addr + 1) bs

/-- The lowest byte address of a slot (R61). -/
def slotAddr (slot : Byte) : Nat := 8 * slot.toNat

/-- `ring[slot]` (R8): its eight bytes split into the fields of R80. -/
def ringRecord (m : Memory) (slot : Byte) : Rec :=
  Rec.ofEight (m.read (slotAddr slot)) (m.read (slotAddr slot + 1)) (m.read (slotAddr slot + 2))
    (m.read (slotAddr slot + 3)) (m.read (slotAddr slot + 4)) (m.read (slotAddr slot + 5))
    (m.read (slotAddr slot + 6)) (m.read (slotAddr slot + 7))

/-- `ring[slot] <- r`, all five fields: `MemWrite(8*slot, 8, r)` (R100). -/
def ringStore (m : Memory) (slot : Byte) (r : Rec) : Memory := m.writeBytes (slotAddr slot) r.toBytes

/-- `ring[slot].opcode <- 0`: `MemWrite(8*slot, 1, 0)` (R104). -/
def clearOpcode (m : Memory) (slot : Byte) : Memory := m.write (slotAddr slot) 0

/-- The instruction a STEP fetches: the record in the slot at that moment (20_memory.md R72), decoded. -/
def fetch (s : State) : Instr := decodeRec (ringRecord s.ring s.rd)

/-! ## The player and channel files -/

/-- Write to `P[p]`; nothing where there is no player `p`. -/
def modifyPlayer (p : Byte) (f : Player → Player) (s : State) : State :=
  { s with players := s.players.modify p.toNat f }

/-- Write to the registers of `CH[p][c]`; nothing where the channel is absent. -/
def Player.modifyChannel (c : Byte) (f : Channel → Channel) (P : Player) : Player :=
  if h : c.toNat < 16 then { P with chans := P.chans.set c.toNat (P.chans[c.toNat].map f) } else P

/-- Write to `CH[p][c]` in the state. -/
def modifyChannel (p c : Byte) (f : Channel → Channel) (s : State) : State :=
  modifyPlayer p (Player.modifyChannel c f) s

/-- Write to every player (R132, R133). -/
def modifyAllPlayers (f : Player → Player) (s : State) : State := { s with players := s.players.map f }

/-- The oracle's answer, one player at a time, put in place of the player file (R147): its footprint is `P` and
`CH`, and the number of players stays. -/
def runHook (answer : List Player → Nat → Player) (s : State) : State :=
  { s with players := s.players.mapIdx fun p _ => answer s.players p }

/-! ## The end of a command (R104, R106) -/

/-- The consumed slot's opcode zeroed, `rd` advanced, and the drain ended (`term`) or counted down (R104). -/
def retire (term : Bool) (s : State) : State :=
  { s with
    ring := clearOpcode s.ring s.rd
    rd := s.rd + 1
    rem := remAfterStep term s.rem
    active := activeFor (remAfterStep term s.rem) }

/-- One command, interpreted by a STEP: its effect on the sequencer registers, then the end of the STEP.
With no drain active there is no STEP, so nothing happens (R104). -/
def interpret (term : Bool) (effect : State → State) (s : State) : Result :=
  if s.active then .next (retire term (effect s)) else .next s

/-- `effect` under the gate `target < PLAYER_COUNT` (R140, R160). -/
def gatedByPlayer (a : Args) (effect : State → State) (s : State) : State :=
  if playerExists s a.target then effect s else s

/-- `effect` under the channel class's gate (R170). -/
def gatedByChannel (a : Args) (effect : State → State) (s : State) : State :=
  if channelGate s a then effect s else s

/-! ## The external writer and RESET -/

/-- One write of EXT (R38). -/
def applyExtWrite (s : State) : ExtWrite → State
  | .player p v => modifyPlayer p (fun _ => v) s
  | .channel p c v =>
    modifyPlayer p (fun P => if h : c.toNat < 16 then { P with chans := P.chans.set c.toNat v } else P) s

/-- EXT (R38): all its writes, in one transition. -/
def applyExt (ws : List ExtWrite) (s : State) : State := ws.foldl applyExtWrite s

/-- RESET (70_reset_and_hazards.md R230): every state item at the value of R36, whatever the state was.
The parameters are fixed (R233) and what the agents do next is not the block's. -/
def resetBlock (s : State) : State := State.resetWith s.playerCount s.ticksPerBeat s.inputs

end Sys2Proof.Machine
end

