-- ==== Sys2Proof/Machine/ChannelCmds.lean ====
section
/-! DEFINITION. The channel commands, opcodes 0x00 to 0x3F (44_channel_cmds.md R170 to R181). -/

namespace Sys2Proof.Machine

/-! ## What each does to the registers of its channel -/

/-- R171. -/
def Channel.setVolumeScale (f : Word) (C : Channel) : Channel :=
  { C with volumeScale := f, changes := C.changes.markVolume }

/-- R172. -/
def Channel.setVolume (f : Word) (C : Channel) : Channel :=
  { C with volume := f, changes := C.changes.markVolume }

/-- R173. -/
def Channel.setPan (b : Byte) (C : Channel) : Channel := { C with pan := b, changes := C.changes.markPan }

/-- R174. -/
def Channel.setFreqScale (f : Word) (C : Channel) : Channel :=
  { C with freqScale := f, changes := C.changes.markFreqScale }

/-- R175. -/
def Channel.setReverbVol (b : Byte) (C : Channel) : Channel := { C with reverbVol := b }

/-- R176: only if the index is less than 8. -/
def Channel.setScriptIO (i b : Byte) (C : Channel) : Channel :=
  if h : i.toNat < 8 then { C with scriptIO := C.scriptIO.set i.toNat b } else C

/-- R178. -/
def Channel.setStopFlag (b : Byte) (C : Channel) : Channel := { C with stopFlag := b }

/-! ## Effects under the gate -/

/-- R171. -/
def volumeScaleEffect (a : Args) (s : State) : State :=
  modifyChannel a.target a.arg2 (Channel.setVolumeScale (asFloat a.payload)) s

/-- R172. -/
def volumeEffect (a : Args) (s : State) : State :=
  modifyChannel a.target a.arg2 (Channel.setVolume (asFloat a.payload)) s

/-- R173. -/
def panEffect (a : Args) (s : State) : State :=
  modifyChannel a.target a.arg2 (Channel.setPan (asSignedByte a.payload)) s

/-- R174. -/
def freqScaleEffect (a : Args) (s : State) : State :=
  modifyChannel a.target a.arg2 (Channel.setFreqScale (asFloat a.payload)) s

/-- R175. -/
def reverbEffect (a : Args) (s : State) : State :=
  modifyChannel a.target a.arg2 (Channel.setReverbVol (asSignedByte a.payload)) s

/-- R176. -/
def scriptIOEffect (a : Args) (s : State) : State :=
  modifyChannel a.target a.arg2 (Channel.setScriptIO a.arg3 (asSignedByte a.payload)) s

/-- R178. -/
def stopFlagEffect (a : Args) (s : State) : State :=
  modifyChannel a.target a.arg2 (Channel.setStopFlag (asSignedByte a.payload)) s

/-! ## Meanings -/

/-- NOP, opcode 0x00, the consumed marker (R179, 30_encoding.md R86). -/
def execNop (_a : Args) (s : State) : Result := interpret false id s

/-- CH_VOLSCALE, opcode 0x01 (R171). -/
def execChVolscale (a : Args) (s : State) : Result := interpret false (gatedByChannel a (volumeScaleEffect a)) s

/-- CH_VOLUME, opcode 0x02 (R172). -/
def execChVolume (a : Args) (s : State) : Result := interpret false (gatedByChannel a (volumeEffect a)) s

/-- CH_PAN, opcode 0x03 (R173). -/
def execChPan (a : Args) (s : State) : Result := interpret false (gatedByChannel a (panEffect a)) s

/-- CH_FREQSCALE, opcode 0x04 (R174). -/
def execChFreqscale (a : Args) (s : State) : Result := interpret false (gatedByChannel a (freqScaleEffect a)) s

/-- CH_REVERB, opcode 0x05 (R175). -/
def execChReverb (a : Args) (s : State) : Result := interpret false (gatedByChannel a (reverbEffect a)) s

/-- CH_SCRIPTIO, opcode 0x06 (R176). -/
def execChScriptio (a : Args) (s : State) : Result := interpret false (gatedByChannel a (scriptIOEffect a)) s

/-- RSVD_CHAN_07, opcode 0x07 (R177): no operation. -/
def execRsvdChan07 (_a : Args) (s : State) : Result := interpret false id s

/-- CH_STOP, opcode 0x08 (R178). -/
def execChStop (a : Args) (s : State) : Result := interpret false (gatedByChannel a (stopFlagEffect a)) s

/-- RSVD_CHAN, opcodes 0x09 to 0x3F (R179): no operation. -/
def execRsvdChan (_op : Byte) (_a : Args) (s : State) : Result := interpret false id s

end Sys2Proof.Machine
end

