-- ==== Sys2Proof/Machine/Global.lean ====
section
/-! DEFINITION. The global commands, opcodes 0xF0 to 0xFF (41_global_cmds.md R130 to R135): applied
unconditionally, and each ends the drain. -/

namespace Sys2Proof.Machine

/-- R131: `soundMode <- payload`. -/
def soundModeEffect (a : Args) (s : State) : State := { s with soundMode := asUint32 a.payload }

/-- R132: `P[p].muted <- 1` for all `p`. -/
def muteAllEffect (s : State) : State := modifyAllPlayers (fun P => { P with muted := true }) s

/-- R133: `P[p].muted <- 0` for all `p`. -/
def unmuteAllEffect (s : State) : State := modifyAllPlayers (fun P => { P with muted := false }) s

/-- R134: `ext_misc(rec)`. -/
def miscEffect (a : Args) (s : State) : State := runHook (Config.extMisc (a.withOpcode 0xF3)) s

/-- G_SOUNDMODE, opcode 0xF0 (R131). -/
def execGSoundmode (a : Args) (s : State) : Result := interpret true (soundModeEffect a) s

/-- G_MUTEALL, opcode 0xF1 (R132); its fields are ignored. -/
def execGMuteall (_a : Args) (s : State) : Result := interpret true muteAllEffect s

/-- G_UNMUTEALL, opcode 0xF2 (R133); its fields are ignored. -/
def execGUnmuteall (_a : Args) (s : State) : Result := interpret true unmuteAllEffect s

/-- G_MISC, opcode 0xF3 (R134). -/
def execGMisc (a : Args) (s : State) : Result := interpret true (miscEffect a) s

/-- RSVD_GLOBAL, opcodes 0xF4 to 0xFF (R135): no register changes, the drain ends. -/
def execRsvdGlobal (_op : Byte) (_a : Args) (s : State) : Result := interpret true id s

end Sys2Proof.Machine
end

