-- ==== Sys2Proof/Machine/Numerics.lean ====
section
/-! DEFINITION. The arithmetic on `f32` patterns (00_scope.md R9): negation, conversion from `i32` and division,
in IEEE 754 binary32 with round to nearest, ties to even. What the standard says of each case is taken from the
standard itself (PRESUMED, log entry 8); the bits of a NaN result are free (log entry 9). -/

namespace Sys2Proof.Machine

/-- `F32_ZERO` (R9). -/
def f32Zero : Word := 0x00000000#32

/-- The magnitude of infinity. -/
def f32InfMagnitude : Nat := 0x7F800000

/-- The biased exponent field. -/
def f32Exponent (x : Word) : Nat := (x.extractLsb' 23 8).toNat

/-- The fraction field. -/
def f32Fraction (x : Word) : Nat := (x.extractLsb' 0 23).toNat

/-- The sign bit. -/
def f32Sign (x : Word) : Bool := x.msb

def f32IsNaN (x : Word) : Bool := decide (f32Exponent x = 255) && decide (f32Fraction x ≠ 0)

def f32IsInf (x : Word) : Bool := decide (f32Exponent x = 255) && decide (f32Fraction x = 0)

def f32IsZero (x : Word) : Bool := decide (f32Exponent x = 0) && decide (f32Fraction x = 0)

/-- The integer significand of a finite pattern: with the hidden bit, but for a subnormal. -/
def f32Mantissa (x : Word) : Nat :=
  if f32Exponent x = 0 then f32Fraction x else f32Fraction x + 2 ^ 23

/-- The power of two a finite pattern's significand is scaled by, above the smallest, `2 ^ (-149)`. -/
def f32Scale (x : Word) : Nat := f32Exponent x - 1

/-- The pattern with this sign and this 31-bit magnitude. -/
def f32Pattern (neg : Bool) (magnitude : Nat) : Word := BitVec.ofBool neg ++ BitVec.ofNat 31 magnitude

/-- `n / d` to the nearest integer, ties to even. -/
def roundNearestEven (n d : Nat) : Nat :=
  if d < 2 * (n % d) ∨ (2 * (n % d) = d ∧ n / d % 2 = 1) then n / d + 1 else n / d

/-- The magnitude of the binary32 number nearest to `n / d`, ties to even, infinity on overflow.
`k` is the least scale at which the significand fits in 24 bits; a significand that rounds up to `2 ^ 24` carries
into the exponent by itself. -/
def f32RoundMagnitude (n d : Nat) : Nat :=
  let scaled := n * 2 ^ 149
  let k := Nat.log2 (scaled / d) - 23
  min (k * 2 ^ 23 + roundNearestEven scaled (d * 2 ^ k)) f32InfMagnitude

/-- `f32_neg` (R9): the sign bit flipped. -/
def f32Neg (x : Word) : Word := x ^^^ 0x80000000#32

/-- `f32_of_i32` (R9). -/
def f32OfI32 (x : Word) : Word := f32Pattern x.msb (f32RoundMagnitude x.toInt.natAbs 1)

/-- The NaN a division of these operands gives: exponent all ones, fraction not 0, all else free. -/
def f32NaN (a b : Word) : Word :=
  f32Pattern (Config.nanSign a b) (f32InfMagnitude + ((Config.nanFraction a b).val + 1))

/-- `f32_div` (R9). -/
def f32Div (a b : Word) : Word :=
  let neg := f32Sign a != f32Sign b
  if f32IsNaN a || f32IsNaN b || (f32IsInf a && f32IsInf b) || (f32IsZero a && f32IsZero b) then f32NaN a b
  else if f32IsInf a || f32IsZero b then f32Pattern neg f32InfMagnitude
  else if f32IsInf b then f32Pattern neg 0
  else f32Pattern neg
    (f32RoundMagnitude (f32Mantissa a * 2 ^ f32Scale a) (f32Mantissa b * 2 ^ f32Scale b))

end Sys2Proof.Machine
end

