-- ==== Sys2Proof/Machine/PlayerMgmt.lean ====
section
/-! DEFINITION. The player-management commands, opcodes 0x80 to 0xEF, and the fade helpers
(42_player_mgmt_cmds.md R140 to R149). -/

namespace Sys2Proof.Machine

/-! ## Helpers -/

/-- The duration of a fade-out, raised to 1 if it is less, signed (R145). -/
def clampDuration (d : Word) : Word := if d.slt 1#32 then 1#32 else d

/-- `fadeToZero` on one player (R145); `fadeVolume` is read, not written. -/
def Player.fadeToZero (d : Word) (P : Player) : Player :=
  { P with
    state := .fadingOut
    fadeRemaining := clampDuration d
    fadeVelocity := f32Neg (f32Div P.fadeVolume (f32OfI32 (clampDuration d))) }

/-- `fadeToZero(p, d)` (R145). -/
def fadeToZero (p : Byte) (d : Word) (s : State) : State := modifyPlayer p (Player.fadeToZero d) s

/-- `fadeIn` on one player (R146). -/
def Player.fadeIn (d : Word) (P : Player) : Player :=
  if d = 0 then P
  else
    { P with
      state := .fadingIn
      fadeRemaining := d
      fadeVolume := f32Zero
      fadeVelocity := f32Zero }

/-- `fadeIn(p, d)` (R146). -/
def fadeIn (p : Byte) (d : Word) (s : State) : State := modifyPlayer p (Player.fadeIn d) s

/-- `stop(p)` (R144): the hook first, then the interpreter's own writes (R147). -/
def stopPlayer (p : Byte) (s : State) : State :=
  modifyPlayer p (fun P => { P with enabled := false, state := .stopped }) (runHook (Config.extStop p) s)

/-! ## Effects under the gate -/

/-- R141: `ext_preload(rec)`. -/
def preloadEffect (a : Args) (s : State) : State := runHook (Config.extPreload (a.withOpcode 0x81)) s

/-- R142, R143: `ext_load(rec)`, then `fadeIn(target, asInt32(payload))`; the hook sees the record's opcode. -/
def loadFadeInEffect (op : Byte) (a : Args) (s : State) : State :=
  fadeIn a.target (asInt32 a.payload) (runHook (Config.extLoad (a.withOpcode op)) s)

/-- R144: `stop(target)` if the payload is zero, else `fadeToZero(target, payload)`. -/
def stopFadeEffect (a : Args) (s : State) : State :=
  if asInt32 a.payload = 0 then stopPlayer a.target s else fadeToZero a.target (asInt32 a.payload) s

/-! ## Meanings -/

/-- PL_PRELOAD, opcode 0x81 (R141). -/
def execPlPreload (a : Args) (s : State) : Result := interpret false (gatedByPlayer a (preloadEffect a)) s

/-- PL_LOADFADEIN, opcode 0x82 (R142). -/
def execPlLoadfadein (a : Args) (s : State) : Result :=
  interpret false (gatedByPlayer a (loadFadeInEffect 0x82 a)) s

/-- PL_LOADFADEIN_B, opcode 0x88 (R143). -/
def execPlLoadfadeinB (a : Args) (s : State) : Result :=
  interpret false (gatedByPlayer a (loadFadeInEffect 0x88 a)) s

/-- PL_STOPFADE, opcode 0x83 (R144). -/
def execPlStopfade (a : Args) (s : State) : Result := interpret false (gatedByPlayer a (stopFadeEffect a)) s

/-- RSVD_MGMT (R148): nothing, whether or not the player exists. -/
def execRsvdMgmt (_op : Byte) (_a : Args) (s : State) : Result := interpret false id s

end Sys2Proof.Machine
end

