-- ==== Sys2Proof/Machine/PlayerParam.lean ====
section
/-! DEFINITION. The player-parameter commands, opcodes 0x40 to 0x7F (43_player_param_cmds.md R160 to R165): gated
on the player's existence, not on its being enabled. -/

namespace Sys2Proof.Machine

/-- R161: a bit copy, and the volume marked dirty. -/
def fadeVolScaleEffect (a : Args) (s : State) : State :=
  modifyPlayer a.target (fun P => Player.markVolDirty { P with fadeVolumeScale := asFloat a.payload }) s

/-- R162: `P[p].variation[arg3] <- payload[31:24]`; every `arg3` is an index. -/
def variationEffect (a : Args) (s : State) : State :=
  modifyPlayer a.target
    (fun P => { P with variation := P.variation.set a.arg3.toNat (asSignedByte a.payload) a.arg3.isLt }) s

/-- R163: the exact product, its low 32 bits kept. -/
def tempoProduct (payload : Word) (ticks : Nat) : Word := BitVec.ofInt 32 ((asInt32 payload).toInt * (ticks : Int))

/-- R163: `P[p].tempo <- trunc_32(asInt32(payload) * TICKS_PER_BEAT)`. -/
def tempoEffect (a : Args) (s : State) : State :=
  modifyPlayer a.target (fun P => { P with tempo := tempoProduct a.payload s.ticksPerBeat }) s

/-- R164: `P[p].transposition <- payload[31:24]`. -/
def transposeEffect (a : Args) (s : State) : State :=
  modifyPlayer a.target (fun P => { P with transposition := asSignedByte a.payload }) s

/-- PL_FADEVOLSCALE, opcode 0x41 (R161). -/
def execPlFadevolscale (a : Args) (s : State) : Result :=
  interpret false (gatedByPlayer a (fadeVolScaleEffect a)) s

/-- PL_VARIATION, opcode 0x46 (R162). -/
def execPlVariation (a : Args) (s : State) : Result := interpret false (gatedByPlayer a (variationEffect a)) s

/-- PL_TEMPO, opcode 0x47 (R163). -/
def execPlTempo (a : Args) (s : State) : Result := interpret false (gatedByPlayer a (tempoEffect a)) s

/-- PL_TRANSPOSE, opcode 0x48 (R164). -/
def execPlTranspose (a : Args) (s : State) : Result := interpret false (gatedByPlayer a (transposeEffect a)) s

/-- RSVD_PARAM (R165): nothing. -/
def execRsvdParam (_op : Byte) (_a : Args) (s : State) : Result := interpret false id s

end Sys2Proof.Machine
end

