-- ==== Sys2Proof/Machine/Queue.lean ====
section
/-! DEFINITION. The queue transactions ENQ, PUB, POLL and STEP, the interpreter's dispatch `apply`, and the
derived whole drain (40_queue_ops.md R100 to R112). -/

namespace Sys2Proof.Machine

/-! ## Producer -/

/-- ENQ (R100). -/
def execEnq (r : Rec) (s : State) : Result :=
  .next { s with
    ring := ringStore s.ring s.wr r
    wr := s.wr + 1
    lap := lapAfterEnq (s.wr + 1) s.pub }

/-- `send` on the publish mailbox of capacity 4: the new message is dropped when it is full (R102). -/
def send (mbox : List Msg) (m : Msg) : List Msg := if mbox.length < 4 then mbox ++ [m] else mbox

/-- PUB (R101). -/
def execPub (s : State) : Result :=
  .next { s with
    hwm := hwmAfterPub s.hwm (pendingDepth s.wr s.pub)
    mbox := send s.mbox { full := s.lap, start := s.pub, stop := s.wr }
    pub := s.wr
    lap := false }

/-! ## Consumer -/

/-- POLL (R103). -/
def execPoll (s : State) : Result :=
  if s.active then .next s
  else
    match s.mbox with
    | [] => .next s
    | m :: ms => .next { s with mbox := ms, rd := m.start, rem := m.count, active := activeFor m.count }

/-- `exec_global` (R130). -/
def applyGlobal (r : Rec) (s : State) : State :=
  if r.opcode = 0xF0#8 then soundModeEffect r.toArgs s
  else if r.opcode = 0xF1#8 then muteAllEffect s
  else if r.opcode = 0xF2#8 then unmuteAllEffect s
  else if r.opcode = 0xF3#8 then miscEffect r.toArgs s
  else s

/-- `exec_mgmt` (R140). -/
def applyManagement (r : Rec) (s : State) : State :=
  if r.opcode = 0x81#8 then preloadEffect r.toArgs s
  else if r.opcode = 0x82#8 ∨ r.opcode = 0x88#8 then loadFadeInEffect r.opcode r.toArgs s
  else if r.opcode = 0x83#8 then stopFadeEffect r.toArgs s
  else s

/-- `exec_param` (R160). -/
def applyParameter (r : Rec) (s : State) : State :=
  if r.opcode = 0x41#8 then fadeVolScaleEffect r.toArgs s
  else if r.opcode = 0x46#8 then variationEffect r.toArgs s
  else if r.opcode = 0x47#8 then tempoEffect r.toArgs s
  else if r.opcode = 0x48#8 then transposeEffect r.toArgs s
  else s

/-- `exec_chan` (R170). -/
def applyChannel (r : Rec) (s : State) : State :=
  if r.opcode = 0x01#8 then volumeScaleEffect r.toArgs s
  else if r.opcode = 0x02#8 then volumeEffect r.toArgs s
  else if r.opcode = 0x03#8 then panEffect r.toArgs s
  else if r.opcode = 0x04#8 then freqScaleEffect r.toArgs s
  else if r.opcode = 0x05#8 then reverbEffect r.toArgs s
  else if r.opcode = 0x06#8 then scriptIOEffect r.toArgs s
  else if r.opcode = 0x08#8 then stopFlagEffect r.toArgs s
  else s

/-- `term`: the record is of the global class (R81, R106). -/
def endsDrain (r : Rec) : Bool := decide (r.opcode.extractLsb' 4 4 = 0xF#4)

/-- The effect of `apply(rec)` (R105), the class tests and gates in its order. -/
def applyRecord (r : Rec) (s : State) : State :=
  if endsDrain r then applyGlobal r s
  else if r.opcode.getLsbD 7 then gatedByPlayer r.toArgs (applyManagement r) s
  else if r.opcode.getLsbD 6 then gatedByPlayer r.toArgs (applyParameter r) s
  else gatedByChannel r.toArgs (applyChannel r) s

/-- STEP (R104): fetch, `apply`, zero, advance; nothing when no drain is active. -/
def execStep (s : State) : Result :=
  interpret (endsDrain (ringRecord s.ring s.rd)) (applyRecord (ringRecord s.ring s.rd)) s

/-! ## The whole drain as one function (R107) -/

/-- `drain` from slot `slot` with `count` slots to go. -/
def drain : Nat → Byte → State → State
  | 0, _, s => s
  | count + 1, slot, s =>
    let r := ringRecord s.ring slot
    let s' := { applyRecord r s with ring := clearOpcode s.ring slot }
    if endsDrain r then s' else drain count (slot + 1) s'

end Sys2Proof.Machine
end

