-- ==== Sys2Proof/Machine/Dispatch.lean ====
section
/-! DEFINITION. One arm per instruction: the direct call of its meaning. A command's meaning is the STEP that
interprets it (40_queue_ops.md R104, R105). -/

namespace Sys2Proof.Machine

def exec (i : Instr) (s : State) : Host.Outcome State Fault Refusal :=
  match i with
  | .nop a => Sys2Proof.Machine.execNop a s
  | .chVolscale a => Sys2Proof.Machine.execChVolscale a s
  | .chVolume a => Sys2Proof.Machine.execChVolume a s
  | .chPan a => Sys2Proof.Machine.execChPan a s
  | .chFreqscale a => Sys2Proof.Machine.execChFreqscale a s
  | .chReverb a => Sys2Proof.Machine.execChReverb a s
  | .chScriptio a => Sys2Proof.Machine.execChScriptio a s
  | .rsvdChan07 a => Sys2Proof.Machine.execRsvdChan07 a s
  | .chStop a => Sys2Proof.Machine.execChStop a s
  | .plFadevolscale a => Sys2Proof.Machine.execPlFadevolscale a s
  | .plVariation a => Sys2Proof.Machine.execPlVariation a s
  | .plTempo a => Sys2Proof.Machine.execPlTempo a s
  | .plTranspose a => Sys2Proof.Machine.execPlTranspose a s
  | .plPreload a => Sys2Proof.Machine.execPlPreload a s
  | .plLoadfadein a => Sys2Proof.Machine.execPlLoadfadein a s
  | .plStopfade a => Sys2Proof.Machine.execPlStopfade a s
  | .plLoadfadeinB a => Sys2Proof.Machine.execPlLoadfadeinB a s
  | .gSoundmode a => Sys2Proof.Machine.execGSoundmode a s
  | .gMuteall a => Sys2Proof.Machine.execGMuteall a s
  | .gUnmuteall a => Sys2Proof.Machine.execGUnmuteall a s
  | .gMisc a => Sys2Proof.Machine.execGMisc a s
  | .rsvdGlobal op a => Sys2Proof.Machine.execRsvdGlobal op a s
  | .rsvdMgmt op a => Sys2Proof.Machine.execRsvdMgmt op a s
  | .rsvdParam op a => Sys2Proof.Machine.execRsvdParam op a s
  | .rsvdChan op a => Sys2Proof.Machine.execRsvdChan op a s
  | .enq r => Sys2Proof.Machine.execEnq r s
  | .pub => Sys2Proof.Machine.execPub s
  | .poll => Sys2Proof.Machine.execPoll s
  | .step => Sys2Proof.Machine.execStep s

end Sys2Proof.Machine
end

