-- ==== Sys2Proof/Machine/Step.lean ====
section
/-! DEFINITION. One transition of the block (00_scope.md R5, R6): the next one of the schedule in `State.inputs`.
A STEP fetches the record at `rd`, decodes it and runs the instruction it holds. -/

namespace Sys2Proof.Machine

/-- What one agent's transition does. -/
def perform (e : Event) (s : State) : Host.Outcome State Fault Refusal :=
  match e with
  | .enq r => exec (.enq r) s
  | .pub => exec .pub s
  | .poll => exec .poll s
  | .step => exec (fetch s) s
  | .ext ws => .next (applyExt ws s)
  | .reset => .next (resetBlock s)

/-- One transition. With nothing waiting at its ports the block stays as it is: none of its transitions happens
by itself (R6). -/
def step (s : State) : Host.Outcome State Fault Refusal :=
  match s.inputs with
  | [] => .next s
  | e :: rest => perform e { s with inputs := rest }

/-- `s` with the record of a table word in the slot that `rd` names, a drain in progress there, and a STEP as the
next transition, so that `step` fetches and runs exactly that record. -/
def State.withFetchWord (s : State) (nbits w : Nat) : State :=
  { s with
    ring := ringStore s.ring s.rd (tableRecord nbits w)
    active := true
    rem := if s.rem = 0 then 1 else s.rem
    inputs := .step :: s.inputs }

end Sys2Proof.Machine
end

