-- ==== Sys2Proof/Safety.lean ====
section
/-! DEFINITION. What holds of every state the block reaches (10_state.md R41), in the terms claims use. -/

namespace Sys2Proof.Machine

/-- The invariants (a) to (e) of R41, and with them the form of the ring's memory and the range of
`PLAYER_COUNT` (00_scope.md R4). -/
structure State.Inv (s : State) : Prop where
  /-- (a) -/
  rem_le : s.rem ≤ 256#9
  /-- (b) -/
  active_iff : s.active = true ↔ s.rem ≠ 0
  /-- (c) -/
  mbox_le : s.mbox.length ≤ 4
  /-- (d) -/
  lap_eq : s.lap = true → s.wr = s.pub
  /-- (e) -/
  full_eq : ∀ m ∈ s.mbox, m.full = true → m.start = m.stop
  /-- The ring's memory is in its canonical form, inside its 2048 bytes. -/
  ring_wf : s.ring.wf = true
  /-- R4: `PLAYER_COUNT` is 1 to 256. -/
  players_range : 1 ≤ s.playerCount ∧ s.playerCount ≤ 256

/-- One step after another, while the outcome is a next state: `n` STEP transactions. -/
def stepTimes : Nat → State → Result
  | 0, s => .next s
  | n + 1, s =>
    match exec .step s with
    | .next t => stepTimes n t
    | .fault r => .fault r
    | .refused r => .refused r

end Sys2Proof.Machine
end

