-- ==== Sys2Proof/Certificates/Slice0/Obligations.lean ====
section
/-! DEFINITION. The statements for the provers, each from the numbered rules of spec/. "The slot is consumed and
the drain goes on" is written out as R104 gives it: the opcode byte at `8*rd` cleared, `rd` one on, `rem` one less,
`active` as long as slots are left. -/

open Sys2Proof Sys2Proof.Machine

/-! ## Encoding -/

/-- Words written out bit by bit from R62, R80, R84 and R85, one or more for each class. -/
def Obligations.TableWordsDecodeToTheirInstructions : Prop :=
  decodeTableWord 64 0x020103003F000000 = some (.chVolume ⟨1, 3, 0, 0x3F000000⟩)
  ∧ decodeTableWord 64 0x060003077F000000 = some (.chScriptio ⟨0, 3, 7, 0x7F000000⟩)
  ∧ decodeTableWord 64 0x4702000000000078 = some (.plTempo ⟨2, 0, 0, 0x78⟩)
  ∧ decodeTableWord 64 0x8800030000000000 = some (.plLoadfadeinB ⟨0, 3, 0, 0⟩)
  ∧ decodeTableWord 64 0xF0FF1234DEADBEEF = some (.gSoundmode ⟨0xFF, 0x12, 0x34, 0xDEADBEEF⟩)
  ∧ decodeTableWord 64 0xF700000000000000 = some (.rsvdGlobal 0xF7 ⟨0, 0, 0, 0⟩)
  ∧ decodeTableWord 64 0x9000000000000000 = some (.rsvdMgmt 0x90 ⟨0, 0, 0, 0⟩)
  ∧ decodeTableWord 64 0x4200000012345678 = some (.rsvdParam 0x42 ⟨0, 0, 0, 0x12345678⟩)
  ∧ decodeTableWord 64 0x3F00000000000000 = some (.rsvdChan 0x3F ⟨0, 0, 0, 0⟩)

/-- Every well-formed command encodes to eight bytes that decode back to it, whatever bytes follow (R80, R89). -/
def Obligations.EncodedCommandsDecodeBack : Prop :=
  ∀ i : Instr, i.wf = true → i.opClass ≠ .transaction →
    ∃ bs, encode i = some bs ∧ bs.length = 8 ∧ ∀ rest, decode (bs ++ rest) = .ok (i, rest)

/-- Any eight bytes are the encoding of a well-formed command: no encoding is illegal (R85), and no bit of a record
is lost. -/
def Obligations.EveryRecordDecodesAndEncodesBack : Prop :=
  ∀ bs rest : List Byte, bs.length = 8 →
    ∃ i, decode (bs ++ rest) = .ok (i, rest) ∧ i.wf = true ∧ i.opClass ≠ .transaction ∧ encode i = some bs

/-- The class of a decoded record is the one of R81's ranges, and it is the class `apply` finds (R105): a global
command ends the drain. -/
def Obligations.ClassIsDecidedByTheFirstTest : Prop :=
  ∀ r : Rec,
    (decodeRec r).opClass =
        (if 0xF0#8 ≤ r.opcode then .global
          else if 0x80#8 ≤ r.opcode then .management
          else if 0x40#8 ≤ r.opcode then .parameter else .channel)
      ∧ (endsDrain r = true ↔ 0xF0#8 ≤ r.opcode)

/-- The named assembler forms of R88 stand for the instructions of those names, and the generic form for its five
numbers; a byte operand `b` is `b << 24` in the payload, bits 23:0 being 0, where `asSignedByte` finds it (R82). -/
def Obligations.AssemblerFormsDecodeAsNamed : Prop :=
  ∀ (op p c i b : Byte) (x : Word),
    (Asm.cmd op p c i x).record = { opcode := op, target := p, arg2 := c, arg3 := i, payload := x }
    ∧ decodeRec (Asm.chVolscale p c x).record = .chVolscale ⟨p, c, 0, x⟩
    ∧ decodeRec (Asm.chVolume p c x).record = .chVolume ⟨p, c, 0, x⟩
    ∧ decodeRec (Asm.chPan p c b).record = .chPan ⟨p, c, 0, byteLane b⟩
    ∧ decodeRec (Asm.chFreqscale p c x).record = .chFreqscale ⟨p, c, 0, x⟩
    ∧ decodeRec (Asm.chReverb p c b).record = .chReverb ⟨p, c, 0, byteLane b⟩
    ∧ decodeRec (Asm.chScriptio p c i b).record = .chScriptio ⟨p, c, i, byteLane b⟩
    ∧ decodeRec (Asm.chStop p c b).record = .chStop ⟨p, c, 0, byteLane b⟩
    ∧ decodeRec (Asm.plFadevolscale p x).record = .plFadevolscale ⟨p, 0, 0, x⟩
    ∧ decodeRec (Asm.plVariation p i b).record = .plVariation ⟨p, 0, i, byteLane b⟩
    ∧ decodeRec (Asm.plTempo p x).record = .plTempo ⟨p, 0, 0, x⟩
    ∧ decodeRec (Asm.plTranspose p b).record = .plTranspose ⟨p, 0, 0, byteLane b⟩
    ∧ decodeRec (Asm.plPreload p c i x).record = .plPreload ⟨p, c, i, x⟩
    ∧ decodeRec (Asm.plLoadfadein p c i x).record = .plLoadfadein ⟨p, c, i, x⟩
    ∧ decodeRec (Asm.plLoadfadeinB p c i x).record = .plLoadfadeinB ⟨p, c, i, x⟩
    ∧ decodeRec (Asm.plStopfade p x).record = .plStopfade ⟨p, 0, 0, x⟩
    ∧ decodeRec (Asm.gSoundmode x).record = .gSoundmode ⟨0, 0, 0, x⟩
    ∧ decodeRec Asm.gMuteall.record = .gMuteall ⟨0, 0, 0, 0⟩
    ∧ decodeRec Asm.gUnmuteall.record = .gUnmuteall ⟨0, 0, 0, 0⟩
    ∧ decodeRec (Asm.gMisc p c i x).record = .gMisc ⟨p, c, i, x⟩
    ∧ decodeRec Asm.nop.record = .nop ⟨0, 0, 0, 0⟩
    ∧ byteLane b = b.setWidth 32 <<< 24
    ∧ (byteLane b).extractLsb' 0 24 = 0
    ∧ asSignedByte (byteLane b) = b

/-- R87: the bits of the message word a PUB sends, that unpacking gives the message back, and the range length. -/
def Obligations.PublishMessageWordPacksAndUnpacks : Prop :=
  (∀ s : State, s.mbox.length < 4 →
    ∃ t m, exec .pub s = .next t ∧ t.mbox = s.mbox ++ [m]
      ∧ m.pack.extractLsb' 0 8 = s.wr ∧ m.pack.extractLsb' 8 8 = s.pub ∧ m.pack.getLsbD 16 = s.lap
      ∧ m.pack.extractLsb' 17 15 = 0)
  ∧ ∀ m : Msg, Msg.unpack m.pack = m
      ∧ m.count.toNat = (if m.full = true then 256 else (m.stop.toNat + 256 - m.start.toNat) % 256)

/-! ## A transition of the machine -/

/-- A STEP of an active drain runs the instruction that the eight bytes at `8*rd` decode to, on the state with that
STEP taken off the schedule (R8, R104; the schedule is the model's own, log entry 1). -/
def Obligations.StepRunsTheDecodedInstruction : Prop :=
  ∀ (s : State) (rest : List Event) (i : Instr),
    s.inputs = .step :: rest → s.active = true →
    decode (s.ring.readBytes (8 * s.rd.toNat) 8) = .ok (i, []) →
    step s = exec i { s with inputs := rest }

/-- What the other labels of R5 do, and that without one nothing happens (the schedule is the model's own, log
entry 1). -/
def Obligations.OtherEventsRunTheirTransitions : Prop :=
  ∀ (s : State) (rest : List Event),
    (∀ r, s.inputs = .enq r :: rest → step s = exec (.enq r) { s with inputs := rest })
    ∧ (s.inputs = .pub :: rest → step s = exec .pub { s with inputs := rest })
    ∧ (s.inputs = .poll :: rest → step s = exec .poll { s with inputs := rest })
    ∧ (s.inputs = .step :: rest → s.active = false → step s = .next { s with inputs := rest })
    ∧ (∀ ws, s.inputs = .ext ws :: rest → step s = .next (applyExt ws { s with inputs := rest }))
    ∧ (s.inputs = .reset :: rest → step s = .next (resetBlock { s with inputs := rest }))
    ∧ (s.inputs = [] → step s = .next s)

/-- A record placed where the next STEP fetches it is the one that STEP runs. Where it is placed, and that a STEP
is next, is the model's own (log entries 1 and 2). -/
def Obligations.PlacedRecordRunsNext : Prop :=
  ∀ (s : State) (nbits w : Nat) (i : Instr),
    decodeTableWord nbits w = some i →
    step (s.withFetchWord nbits w) = exec i { s.withFetchWord nbits w with inputs := s.inputs }

/-- The STEP transaction, written over `apply` as R104 and R105 write it (class tests on the opcode, gates, exact
opcodes), does what the instruction the fetched record decodes to does. -/
def Obligations.StepTransactionRunsTheFetchedCommand : Prop :=
  ∀ s : State, exec .step s = exec (fetch s) s

/-! ## The queue transactions -/

/-- R100: the record in slot `wr`, all five fields, every other slot as before; `wr` one on; `lap` (decision D5). -/
def Obligations.EnqStoresTheRecordAndAdvances : Prop :=
  ∀ (s : State) (r : Rec), ∃ t,
    exec (.enq r) s = .next t
    ∧ t = { s with ring := t.ring, wr := s.wr + 1, lap := decide (s.wr + 1 = s.pub) }
    ∧ ringRecord t.ring s.wr = r
    ∧ ∀ slot, slot ≠ s.wr → ringRecord t.ring slot = ringRecord s.ring slot

/-- R101, R102: the depth's high-water mark, the message sent or dropped, `pub` and `lap` updated all the same
(decisions D6, D7). -/
def Obligations.PubSendsOrDropsAndAlwaysMovesPub : Prop :=
  ∀ s : State,
    (s.mbox.length < 4 → exec .pub s = .next { s with
      hwm := (if s.hwm < s.wr - s.pub then s.wr - s.pub else s.hwm)
      mbox := s.mbox ++ [{ full := s.lap, start := s.pub, stop := s.wr }]
      pub := s.wr
      lap := false })
    ∧ (4 ≤ s.mbox.length → exec .pub s = .next { s with
      hwm := (if s.hwm < s.wr - s.pub then s.wr - s.pub else s.hwm)
      pub := s.wr
      lap := false })

/-- R103: nothing during a drain or on an empty mailbox; else the oldest message's range is loaded, an empty one
leaving no drain. -/
def Obligations.PollLoadsTheOldestRange : Prop :=
  ∀ s : State,
    (s.active = true → exec .poll s = .next s)
    ∧ (s.mbox = [] → exec .poll s = .next s)
    ∧ ∀ m ms, s.active = false → s.mbox = m :: ms →
        ∃ t, exec .poll s = .next t
          ∧ t = { s with mbox := ms, rd := m.start, rem := t.rem, active := t.active }
          ∧ t.rem.toNat = (if m.full = true then 256 else (m.stop.toNat + 256 - m.start.toNat) % 256)
          ∧ (t.active = true ↔ t.rem.toNat ≠ 0)

/-- R104: a STEP of an active drain applies the record in slot `rd`, zeroes that slot's opcode and nothing else of
the ring, and advances; without a drain nothing happens. -/
def Obligations.StepAppliesZeroesAndAdvances : Prop :=
  ∀ s : State,
    (s.active = false → exec .step s = .next s)
    ∧ (s.active = true → ∃ t,
        exec .step s = .next t
        ∧ t = { s with
            soundMode := (applyRecord (ringRecord s.ring s.rd) s).soundMode
            players := (applyRecord (ringRecord s.ring s.rd) s).players
            ring := t.ring
            rd := s.rd + 1
            rem := t.rem
            active := t.active }
        ∧ ringRecord t.ring s.rd = { ringRecord s.ring s.rd with opcode := 0 }
        ∧ (∀ slot, slot ≠ s.rd → ringRecord t.ring slot = ringRecord s.ring slot)
        ∧ t.rem = (if endsDrain (ringRecord s.ring s.rd) then 0 else s.rem - 1)
        ∧ (t.active = true ↔ t.rem ≠ 0))

/-- `apply` changes no queue state, no cursor and no parameter (R105). -/
def Obligations.ApplyWritesOnlySequencerRegisters : Prop :=
  ∀ (r : Rec) (s : State),
    applyRecord r s = { s with soundMode := (applyRecord r s).soundMode, players := (applyRecord r s).players }
    ∧ (applyRecord r s).players.length = s.players.length

/-- Every global command, defined or not, ends the drain: its own slot is consumed, every other byte of the ring,
the skipped slots among them, stays (R106, R130). -/
def Obligations.GlobalCommandsEndTheDrain : Prop :=
  ∀ (i : Instr) (s : State), i.opClass = .global → s.active = true → ∃ t,
    exec i s = .next t ∧ t.rem = 0 ∧ t.active = false ∧ t.rd = s.rd + 1
    ∧ t.ring.read (8 * s.rd.toNat) = 0
    ∧ ∀ a, a ≠ 8 * s.rd.toNat → t.ring.read a = s.ring.read a

/-- Every other command consumes its slot and lets the drain go on, whether it acted or not (R104, R181). -/
def Obligations.OtherCommandsLetTheDrainGoOn : Prop :=
  ∀ (i : Instr) (s : State), i.opClass ≠ .global → i.opClass ≠ .transaction → s.active = true → ∃ t,
    exec i s = .next t ∧ t.rem = s.rem - 1 ∧ (t.active = true ↔ s.rem ≠ 1) ∧ t.rd = s.rd + 1
    ∧ t.ring.read (8 * s.rd.toNat) = 0
    ∧ ∀ a, a ≠ 8 * s.rd.toNat → t.ring.read a = s.ring.read a

/-- No command is interpreted unless a drain is active (R104). The model reads this from R104 (log entry 3). -/
def Obligations.CommandsNeedAnActiveDrain : Prop :=
  ∀ (i : Instr) (s : State), i.opClass ≠ .transaction → s.active = false → exec i s = .next s

/-- The bytes of the ring an instruction may change: the eight of slot `wr` for ENQ, the one at `8*rd` for a STEP or
a command, none for PUB and POLL (R21, R37). Every other byte reads as before. -/
def Obligations.RingBytesOutsideTheStoredOnesStay : Prop :=
  ∀ (i : Instr) (s t : State) (a : Nat), exec i s = .next t →
    (match i with
      | .enq _ => a < 8 * s.wr.toNat ∨ 8 * s.wr.toNat + 8 ≤ a
      | .pub => True
      | .poll => True
      | _ => a ≠ 8 * s.rd.toNat) →
    t.ring.read a = s.ring.read a

/-- POLL of a message and as many STEPs as its range has slots are the whole drain as one function: on the ring and
on every sequencer register (the equality that R107 derives). -/
def Obligations.PollThenStepsIsTheWholeDrain : Prop :=
  ∀ (s : State) (m : Msg) (ms : List Msg), s.active = false → s.mbox = m :: ms →
    ∃ p t, exec .poll s = .next p ∧ stepTimes m.count.toNat p = .next t
      ∧ t.active = false ∧ t.rem = 0 ∧ t.mbox = ms
      ∧ t.ring = (drain m.count.toNat m.start s).ring
      ∧ t.players = (drain m.count.toNat m.start s).players
      ∧ t.soundMode = (drain m.count.toNat m.start s).soundMode

/-- The document's exactly-once property, with the premises R108 derives: at most 256 records enqueued from an empty
queue, no global command among them but perhaps the last, published, polled and stepped through, are each applied
once in enqueue order, and every slot of the range is cleared. The mailbox is empty at the start, where R108 (b) asks
only that it be not full, so that the one POLL takes this batch's message. The schedule a step reads is the model's
own (log entry 1). -/
def Obligations.BatchIsAppliedExactlyOnceInOrder : Prop :=
  ∀ (s : State) (cs : List Rec),
    cs.length ≤ 256 → s.wr = s.pub → s.lap = false → s.mbox = [] → s.active = false →
    (∀ r ∈ cs.dropLast, endsDrain r = false) →
    ∃ t,
      Host.Core.run Sys2Proof.core (2 * cs.length + 2)
          { s with inputs := cs.map Event.enq ++ [.pub, .poll] ++ List.replicate cs.length .step } = .next t
      ∧ t.players = (cs.foldl (fun u r => applyRecord r u) s).players
      ∧ t.soundMode = (cs.foldl (fun u r => applyRecord r u) s).soundMode
      ∧ (∀ k < cs.length, (ringRecord t.ring (s.wr + BitVec.ofNat 8 k)).opcode = 0)
      ∧ t.active = false ∧ t.mbox = []

/-- Draining a range whose every slot is consumed changes nothing at all (R109 derives this, R35). -/
def Obligations.ReplayOfAConsumedRangeDoesNothing : Prop :=
  ∀ (s : State) (slot : Byte) (count : Nat), s.ring.wf = true →
    (∀ k < count, (ringRecord s.ring (slot + BitVec.ofNat 8 k)).opcode = 0) →
    drain count slot s = s

/-- R24 (decision D5): counted from a PUB, `lap` is 1 exactly when the number of ENQ is a non-zero multiple of 256,
and PUB copies it into the message and clears it. The schedule a step reads is the model's own (log entry 1). -/
def Obligations.LapCountsWholeRings : Prop :=
  ∀ (s : State) (cs : List Rec), s.wr = s.pub → s.lap = false →
    ∃ t, Host.Core.run Sys2Proof.core cs.length { s with inputs := cs.map Event.enq } = .next t
      ∧ (t.lap = true ↔ cs.length ≠ 0 ∧ cs.length % 256 = 0)
      ∧ (t.lap = true → t.wr = t.pub)
      ∧ t.pub = s.pub
      ∧ ∃ u, exec .pub t = .next u ∧ u.lap = false
          ∧ (t.mbox.length < 4 → u.mbox = t.mbox ++ [{ full := t.lap, start := t.pub, stop := t.wr }])

/-- The 257th record enqueued before a PUB replaces the first, without any report, and the PUB that follows covers
one slot only (R73 (a), R234; the document's second testable property). The schedule a step reads is the model's
own (log entry 1). -/
def Obligations.The257thRecordOverwritesTheFirst : Prop :=
  ∀ (s : State) (cs : List Rec) (r : Rec), cs.length = 256 → s.wr = s.pub → s.lap = false → s.mbox = [] →
    ∃ t, Host.Core.run Sys2Proof.core 258
          { s with inputs := cs.map Event.enq ++ [Event.enq r, .pub] } = .next t
      ∧ ringRecord t.ring s.wr = r
      ∧ t.wr = s.wr + 1 ∧ t.pub = s.wr + 1
      ∧ t.mbox = [{ full := false, start := s.wr, stop := s.wr + 1 }]

/-! ## Whole-machine rules -/

/-- The invariants hold after reset. -/
def Obligations.ResetMeetsTheInvariant : Prop := State.reset.Inv

/-- Every transition of every agent keeps the invariants that R41 derives, from every state that has them, and with
them the canonical form of the ring's memory. The schedule a step reads is the model's own (log entry 1). -/
def Obligations.EveryTransitionKeepsTheInvariant : Prop :=
  ∀ s t : State, s.Inv → step s = .next t → t.Inv

/-- R200: no transition and no instruction, in any state, stops with a fault or is turned away. -/
def Obligations.NothingFaults : Prop :=
  (∀ s : State, ∃ t, step s = .next t) ∧ ∀ (i : Instr) (s : State), ∃ t, exec i s = .next t

/-- The parameters are fixed before the first transition and never change (R233 (c)): `PLAYER_COUNT`, the length of
the player file, survives every hook, every EXT and RESET, and so does `TICKS_PER_BEAT`. The schedule a step reads
is the model's own (log entry 1). That the parameters stand in the state is log entry 4. -/
def Obligations.ParametersNeverChange : Prop :=
  ∀ s t : State, step s = .next t → t.playerCount = s.playerCount ∧ t.ticksPerBeat = s.ticksPerBeat

/-- RESET leaves every item at the value of R36's table (decision D28) whatever the state was, and the machine starts
so. The model's own choices in it: that RESET keeps the number of players and that the machine starts with 4 of them
(log entry 4, after R4 and R233 (c)), and that an empty list is the ring whose unwritten slots read 0 in every field
(log entry 10). That a step does RESET when the schedule has it next is in OtherEventsRunTheirTransitions. -/
def Obligations.ResetSetsEveryItem : Prop :=
  (∀ s t : State, t = resetBlock s →
    (∀ slot, ringRecord t.ring slot = Args.withOpcode ⟨0, 0, 0, 0⟩ 0)
    ∧ t.wr = 0 ∧ t.pub = 0 ∧ t.lap = false ∧ t.hwm = 0 ∧ t.mbox = []
    ∧ t.active = false ∧ t.rd = 0 ∧ t.rem = 0 ∧ t.soundMode = 0
    ∧ t.players.length = s.players.length
    ∧ (∀ P ∈ t.players,
        P.enabled = false ∧ P.state = .stopped ∧ P.muted = false ∧ P.volDirty = false
        ∧ P.fadeVolume = 0 ∧ P.fadeVolumeScale = 0 ∧ P.fadeVelocity = 0 ∧ P.fadeRemaining = 0 ∧ P.tempo = 0
        ∧ P.transposition = 0 ∧ (∀ i : Byte, P.variation[i.toNat] = 0) ∧ ∀ c, P.chanPresent c = false))
  ∧ State.reset.wr = 0 ∧ State.reset.pub = 0 ∧ State.reset.lap = false ∧ State.reset.hwm = 0
  ∧ State.reset.mbox = [] ∧ State.reset.active = false ∧ State.reset.rem = 0 ∧ State.reset.rd = 0
  ∧ State.reset.soundMode = 0 ∧ State.reset.ring = [] ∧ State.reset.players = List.replicate 4 Player.reset

/-- Who writes what, as R37 tables it: the producer no consumer state and no sequencer register, POLL no ring and no
sequencer register, STEP no producer state and no mailbox, EXT nothing but players and channels. -/
def Obligations.AgentsWriteOnlyTheirOwnState : Prop :=
  ∀ s t : State,
    (∀ r, exec (.enq r) s = .next t → t = { s with ring := t.ring, wr := t.wr, lap := t.lap })
    ∧ (exec .pub s = .next t → t = { s with pub := t.pub, hwm := t.hwm, mbox := t.mbox, lap := t.lap })
    ∧ (exec .poll s = .next t → t = { s with mbox := t.mbox, active := t.active, rd := t.rd, rem := t.rem })
    ∧ (∀ i : Instr, i.opClass ≠ .transaction ∨ i = .step → exec i s = .next t →
        t = { s with
          ring := t.ring
          active := t.active
          rd := t.rd
          rem := t.rem
          soundMode := t.soundMode
          players := t.players })
    ∧ ∀ ws, t = applyExt ws s → t = { s with players := t.players }

/-- `hwm` never decreases but for RESET, and only PUB raises it (R25, R111). The schedule a step reads is the
model's own (log entry 1). -/
def Obligations.HighWaterMarkNeverDecreases : Prop :=
  ∀ (s t : State) (e : Event) (rest : List Event), s.inputs = e :: rest → e ≠ .reset → step s = .next t →
    s.hwm ≤ t.hwm ∧ (e ≠ .pub → t.hwm = s.hwm) ∧ (e = .pub → s.wr - s.pub ≤ t.hwm)

/-- `rd` moves by one slot at each STEP of a drain and is loaded by POLL alone (R27, R112). The schedule a step
reads is the model's own (log entry 1). -/
def Obligations.OnlyPollLoadsTheReadCursor : Prop :=
  ∀ (s t : State) (e : Event) (rest : List Event), s.inputs = e :: rest → e ≠ .reset → step s = .next t →
    (e = .step → s.active = true → t.rd = s.rd + 1)
    ∧ (e = .step → s.active = false → t.rd = s.rd)
    ∧ (e = .poll → t.rd = s.rd ∨ ∃ m, s.mbox.head? = some m ∧ t.rd = m.start ∧ t.mbox = s.mbox.tail)
    ∧ (e ≠ .step → e ≠ .poll → t.rd = s.rd)

/-! ## Global commands -/

/-- R131 (decision D27): the payload bit for bit, whatever the other fields, and the drain ended. -/
def Obligations.GSoundmodeStoresThePayload : Prop :=
  ∀ (s : State) (a : Args), s.active = true →
    exec (.gSoundmode a) s = .next { s with
      soundMode := a.payload
      ring := clearOpcode s.ring s.rd
      rd := s.rd + 1
      rem := 0
      active := false }

/-- R132, R133 (decision D37): every player's mute flag, enabled or not, and no other field of any. -/
def Obligations.MuteAndUnmuteWriteEveryPlayer : Prop :=
  ∀ (s : State) (a : Args), s.active = true →
    exec (.gMuteall a) s = .next { s with
      players := s.players.map (fun P => { P with muted := true })
      ring := clearOpcode s.ring s.rd
      rd := s.rd + 1
      rem := 0
      active := false }
    ∧ exec (.gUnmuteall a) s = .next { s with
      players := s.players.map (fun P => { P with muted := false })
      ring := clearOpcode s.ring s.rd
      rd := s.rd + 1
      rem := 0
      active := false }

/-- R134 (decision D38): the whole record to the hook, whatever the target; the oracle's answer is the new player
file; the drain ended. It holds for every oracle. -/
def Obligations.GMiscHandsTheRecordToItsHook : Prop :=
  ∀ (s : State) (a : Args), s.active = true →
    exec (.gMisc a) s = .next { s with
      players := s.players.mapIdx (fun p _ => Config.extMisc { a with opcode := 0xF3 } s.players p)
      ring := clearOpcode s.ring s.rd
      rd := s.rd + 1
      rem := 0
      active := false }

/-- R135 (decision D11): a reserved global opcode changes no register and ends the drain. -/
def Obligations.ReservedGlobalOnlyEndsTheDrain : Prop :=
  ∀ (s : State) (op : Byte) (a : Args), s.active = true →
    exec (.rsvdGlobal op a) s = .next { s with
      ring := clearOpcode s.ring s.rd
      rd := s.rd + 1
      rem := 0
      active := false }

/-! ## Player-management commands -/

/-- R141: the hook with the whole record if the player exists, and no hook otherwise; the drain goes on. -/
def Obligations.PreloadHandsTheRecordToItsHook : Prop :=
  ∀ (s : State) (a : Args), s.active = true →
    exec (.plPreload a) s = .next { s with
      players :=
        (if a.target.toNat < s.players.length then
          s.players.mapIdx (fun p _ => Config.extPreload { a with opcode := 0x81 } s.players p)
        else s.players)
      ring := clearOpcode s.ring s.rd
      rd := s.rd + 1
      rem := s.rem - 1
      active := decide (s.rem - 1 ≠ 0) }

/-- R142, R143, R146 (decisions D22, D26): the loader first, with the record's own opcode; then, if the duration is
not 0, the fade-in on top of what it left for that player; nothing at all for a player that does not exist. -/
def Obligations.LoadFadeInLoadsThenFadesIn : Prop :=
  ∀ (s : State) (a : Args) (i : Instr) (op : Byte), s.active = true →
    (i = .plLoadfadein a ∧ op = 0x82#8) ∨ (i = .plLoadfadeinB a ∧ op = 0x88#8) →
    ∃ t, exec i s = .next t
      ∧ t = { s with
          players := t.players
          ring := clearOpcode s.ring s.rd
          rd := s.rd + 1
          rem := s.rem - 1
          active := decide (s.rem - 1 ≠ 0) }
      ∧ t.players.length = s.players.length
      ∧ (s.players.length ≤ a.target.toNat → t.players = s.players)
      ∧ (a.target.toNat < s.players.length → ∀ p < s.players.length,
          t.players[p]? = some
            (if p = a.target.toNat ∧ a.payload ≠ 0 then
              { Config.extLoad { a with opcode := op } s.players p with
                state := .fadingIn
                fadeRemaining := a.payload
                fadeVolume := 0x00000000#32
                fadeVelocity := 0x00000000#32 }
            else Config.extLoad { a with opcode := op } s.players p))

/-- R144 (decisions D24, D37): a zero payload stops the player, the hook's writes first and `enabled`, `state` after
them; any other payload fades it out; it needs the player to exist and not to be enabled. -/
def Obligations.StopfadeStopsOrFadesOut : Prop :=
  ∀ (s : State) (a : Args), s.active = true →
    ∃ t, exec (.plStopfade a) s = .next t
      ∧ t = { s with
          players := t.players
          ring := clearOpcode s.ring s.rd
          rd := s.rd + 1
          rem := s.rem - 1
          active := decide (s.rem - 1 ≠ 0) }
      ∧ t.players.length = s.players.length
      ∧ (s.players.length ≤ a.target.toNat → t.players = s.players)
      ∧ (a.target.toNat < s.players.length → a.payload = 0 → ∀ p < s.players.length,
          t.players[p]? = some
            (if p = a.target.toNat then
              { Config.extStop a.target s.players p with enabled := false, state := .stopped }
            else Config.extStop a.target s.players p))
      ∧ ∀ P, a.payload ≠ 0 → s.players[a.target.toNat]? = some P →
          t.players = s.players.set a.target.toNat
            { P with
              state := .fadingOut
              fadeRemaining := (if a.payload.toInt < 1 then 1 else a.payload)
              fadeVelocity :=
                f32Neg (f32Div P.fadeVolume (f32OfI32 (if a.payload.toInt < 1 then 1 else a.payload))) }

/-- A fade-out of duration 0, or of any negative duration, is the fade-out of duration 1 (the floor of R145, the
document's third testable property). -/
def Obligations.FadeOutDurationHasFloorOne : Prop :=
  ∀ (s : State) (p : Byte) (d : Word), d.toInt < 1 → fadeToZero p d s = fadeToZero p 1 s

/-- Division by 1.0 gives every number back, zeros, subnormals and infinities among them (R145, NUM2). -/
def Obligations.DivisionByOneIsExact : Prop :=
  ∀ x : Word, f32IsNaN x = false → f32Div x 0x3F800000 = x

/-- The other named properties of R145: NUM1, NUM3, NUM4 with the negative zero it leads to, and the document's own
example, 100.0 over 10 frames. -/
def Obligations.NamedNumericProperties : Prop :=
  f32OfI32 1 = 0x3F800000 ∧ f32OfI32 10 = 0x41200000
  ∧ f32Div 0x42C80000 0x41200000 = 0x41200000
  ∧ (∀ y : Word, y.msb = false → y ≠ 0 → y < 0x7F800000#32 → f32Div 0x00000000 y = 0x00000000)
  ∧ f32Neg 0x00000000 = 0x80000000
  ∧ f32Neg (f32Div 0x42C80000 (f32OfI32 10)) = 0xC1200000

/-- R148: a reserved player-management opcode does nothing, whether or not the player exists; and every command of the
class for a player that does not exist does nothing (R140). -/
def Obligations.IgnoredManagementCommandsOnlyConsume : Prop :=
  ∀ (s : State) (i : Instr) (a : Args), s.active = true → i.opClass = .management → i.args? = some a →
    (s.players.length ≤ a.target.toNat ∨ ∃ op, i = .rsvdMgmt op a) →
    exec i s = .next { s with
      ring := clearOpcode s.ring s.rd
      rd := s.rd + 1
      rem := s.rem - 1
      active := decide (s.rem - 1 ≠ 0) }

/-- The frame of the management class (R149): beside what its hook leaves (no hook: the player file itself), only the
five fields `enabled`, `state`, `fadeVolume`, `fadeVelocity`, `fadeRemaining` of the target player can differ, so
`muted`, `volDirty`, the scale, tempo, transposition, variation, every channel and every other player stay; the sound
mode stays. A command for a player that does not exist calls no hook. -/
def Obligations.ManagementCommandsFrame : Prop :=
  ∀ (s t : State) (i : Instr) (a : Args) (base : List Player),
    i.opClass = .management → i.args? = some a → s.active = true → exec i s = .next t →
    base = (if a.target.toNat < s.players.length then
      match i with
      | .plPreload _ => s.players.mapIdx fun p _ => Config.extPreload { a with opcode := 0x81 } s.players p
      | .plLoadfadein _ => s.players.mapIdx fun p _ => Config.extLoad { a with opcode := 0x82 } s.players p
      | .plLoadfadeinB _ => s.players.mapIdx fun p _ => Config.extLoad { a with opcode := 0x88 } s.players p
      | .plStopfade _ =>
        if a.payload = 0 then s.players.mapIdx fun p _ => Config.extStop a.target s.players p else s.players
      | _ => s.players
      else s.players) →
    t.soundMode = s.soundMode
    ∧ (∀ p, p ≠ a.target.toNat → t.players[p]? = base[p]?)
    ∧ ∀ P Q, base[a.target.toNat]? = some P → t.players[a.target.toNat]? = some Q →
        Q = { P with
          enabled := Q.enabled
          state := Q.state
          fadeVolume := Q.fadeVolume
          fadeVelocity := Q.fadeVelocity
          fadeRemaining := Q.fadeRemaining }

/-! ## Player-parameter commands -/

/-- R161: the bit copy and the dirty mark, for a player that exists, enabled or not. -/
def Obligations.FadevolscaleCopiesBitsAndMarksDirty : Prop :=
  ∀ (s : State) (a : Args) (P : Player), s.active = true → s.players[a.target.toNat]? = some P →
    exec (.plFadevolscale a) s = .next { s with
      players := s.players.set a.target.toNat { P with fadeVolumeScale := a.payload, volDirty := true }
      ring := clearOpcode s.ring s.rd
      rd := s.rd + 1
      rem := s.rem - 1
      active := decide (s.rem - 1 ≠ 0) }

/-- R162 (decision D14): entry `arg3` takes the payload's top byte, every other entry and field stays. -/
def Obligations.VariationWritesTheIndexedByte : Prop :=
  ∀ (s : State) (a : Args) (P : Player), s.active = true → s.players[a.target.toNat]? = some P →
    ∃ v, exec (.plVariation a) s = .next { s with
        players := s.players.set a.target.toNat { P with variation := v }
        ring := clearOpcode s.ring s.rd
        rd := s.rd + 1
        rem := s.rem - 1
        active := decide (s.rem - 1 ≠ 0) }
      ∧ ∀ i : Byte, v[i.toNat] = (if i = a.arg3 then a.payload.extractLsb' 24 8 else P.variation[i.toNat])

/-- R163 (decision D15): the exact product of the signed payload and `TICKS_PER_BEAT`, its low 32 bits read as two's
complement. -/
def Obligations.TempoIsTheTruncatedProduct : Prop :=
  ∀ (s : State) (a : Args) (P : Player), s.active = true → s.players[a.target.toNat]? = some P →
    ∃ w : Word, exec (.plTempo a) s = .next { s with
        players := s.players.set a.target.toNat { P with tempo := w }
        ring := clearOpcode s.ring s.rd
        rd := s.rd + 1
        rem := s.rem - 1
        active := decide (s.rem - 1 ≠ 0) }
      ∧ (w.toNat : Int) = (a.payload.toInt * s.ticksPerBeat) % 2 ^ 32

/-- R164: the payload's top byte, for a player that exists, enabled or not. -/
def Obligations.TransposeStoresTheTopByte : Prop :=
  ∀ (s : State) (a : Args) (P : Player), s.active = true → s.players[a.target.toNat]? = some P →
    exec (.plTranspose a) s = .next { s with
      players := s.players.set a.target.toNat { P with transposition := a.payload.extractLsb' 24 8 }
      ring := clearOpcode s.ring s.rd
      rd := s.rd + 1
      rem := s.rem - 1
      active := decide (s.rem - 1 ≠ 0) }

/-- R165: a reserved player-parameter opcode does nothing; and no command of the class does anything for a player that
does not exist (R160, decision D12). -/
def Obligations.IgnoredParameterCommandsOnlyConsume : Prop :=
  ∀ (s : State) (i : Instr) (a : Args), s.active = true → i.opClass = .parameter → i.args? = some a →
    (s.players.length ≤ a.target.toNat ∨ ∃ op, i = .rsvdParam op a) →
    exec i s = .next { s with
      ring := clearOpcode s.ring s.rd
      rd := s.rd + 1
      rem := s.rem - 1
      active := decide (s.rem - 1 ≠ 0) }

/-- The frame of the player-parameter class: no other player, no flag but `volDirty` (which is only set), no fade
register but the scale, no channel and no sound mode (R160 to R164). -/
def Obligations.ParameterCommandsFrame : Prop :=
  ∀ (s t : State) (i : Instr) (a : Args), i.opClass = .parameter → i.args? = some a → exec i s = .next t →
    t.soundMode = s.soundMode
    ∧ (∀ p, p ≠ a.target.toNat → t.players[p]? = s.players[p]?)
    ∧ ∀ P Q, s.players[a.target.toNat]? = some P → t.players[a.target.toNat]? = some Q →
        Q = { P with
          fadeVolumeScale := Q.fadeVolumeScale
          volDirty := Q.volDirty
          tempo := Q.tempo
          transposition := Q.transposition
          variation := Q.variation }
        ∧ (P.volDirty = true → Q.volDirty = true)

/-! ## Channel commands -/

/-- R171, R172, R174: with the gate of R170 open, the float commands copy the payload bit for bit and set their dirty
bit; no other register of any channel or player changes. -/
def Obligations.ChannelFloatCommandsCopyAndMark : Prop :=
  ∀ (s : State) (a : Args) (P : Player) (C : Channel) (h : a.arg2.toNat < 16), s.active = true →
    s.players[a.target.toNat]? = some P → P.enabled = true → P.chans[a.arg2.toNat] = some C →
    exec (.chVolscale a) s = .next { s with
      players := s.players.set a.target.toNat { P with
        chans := P.chans.set a.arg2.toNat (some { C with volumeScale := a.payload, changes := { C.changes with volume := true } }) }
      ring := clearOpcode s.ring s.rd
      rd := s.rd + 1
      rem := s.rem - 1
      active := decide (s.rem - 1 ≠ 0) }
    ∧ exec (.chVolume a) s = .next { s with
      players := s.players.set a.target.toNat { P with
        chans := P.chans.set a.arg2.toNat (some { C with volume := a.payload, changes := { C.changes with volume := true } }) }
      ring := clearOpcode s.ring s.rd
      rd := s.rd + 1
      rem := s.rem - 1
      active := decide (s.rem - 1 ≠ 0) }
    ∧ exec (.chFreqscale a) s = .next { s with
      players := s.players.set a.target.toNat { P with
        chans := P.chans.set a.arg2.toNat (some { C with freqScale := a.payload, changes := { C.changes with freqScale := true } }) }
      ring := clearOpcode s.ring s.rd
      rd := s.rd + 1
      rem := s.rem - 1
      active := decide (s.rem - 1 ≠ 0) }

/-- R173, R175, R178 (decision D18): with the gate open, the byte commands store the payload's top byte; pan alone sets
a dirty bit. -/
def Obligations.ChannelByteCommandsStoreTheTopByte : Prop :=
  ∀ (s : State) (a : Args) (P : Player) (C : Channel) (h : a.arg2.toNat < 16), s.active = true →
    s.players[a.target.toNat]? = some P → P.enabled = true → P.chans[a.arg2.toNat] = some C →
    exec (.chPan a) s = .next { s with
      players := s.players.set a.target.toNat { P with
        chans := P.chans.set a.arg2.toNat (some { C with pan := a.payload.extractLsb' 24 8, changes := { C.changes with pan := true } }) }
      ring := clearOpcode s.ring s.rd
      rd := s.rd + 1
      rem := s.rem - 1
      active := decide (s.rem - 1 ≠ 0) }
    ∧ exec (.chReverb a) s = .next { s with
      players := s.players.set a.target.toNat { P with
        chans := P.chans.set a.arg2.toNat (some { C with reverbVol := a.payload.extractLsb' 24 8 }) }
      ring := clearOpcode s.ring s.rd
      rd := s.rd + 1
      rem := s.rem - 1
      active := decide (s.rem - 1 ≠ 0) }
    ∧ exec (.chStop a) s = .next { s with
      players := s.players.set a.target.toNat { P with
        chans := P.chans.set a.arg2.toNat (some { C with stopFlag := a.payload.extractLsb' 24 8 }) }
      ring := clearOpcode s.ring s.rd
      rd := s.rd + 1
      rem := s.rem - 1
      active := decide (s.rem - 1 ≠ 0) }

/-- R176: with the gate open, entry `arg3` of the script-I/O bytes if it is less than 8, and nothing otherwise; every
other entry, register and dirty bit stays. -/
def Obligations.ScriptioWritesAnIndexBelowEight : Prop :=
  ∀ (s : State) (a : Args) (P : Player) (C : Channel) (h : a.arg2.toNat < 16), s.active = true →
    s.players[a.target.toNat]? = some P → P.enabled = true → P.chans[a.arg2.toNat] = some C →
    ∃ io, exec (.chScriptio a) s = .next { s with
        players := s.players.set a.target.toNat { P with
          chans := P.chans.set a.arg2.toNat (some { C with scriptIO := io }) }
        ring := clearOpcode s.ring s.rd
        rd := s.rd + 1
        rem := s.rem - 1
        active := decide (s.rem - 1 ≠ 0) }
      ∧ (∀ (i : Nat) (hi : i < 8),
          io[i] = (if i = a.arg3.toNat then a.payload.extractLsb' 24 8 else C.scriptIO[i]))

/-- If any of the gate's four conditions fails, a channel command of any opcode does nothing but consume its slot
(R170, R181). -/
def Obligations.ChannelGateIgnoresTheCommand : Prop :=
  ∀ (s : State) (i : Instr) (a : Args), s.active = true → i.opClass = .channel → i.args? = some a →
    (s.players.length ≤ a.target.toNat
      ∨ (∃ P, s.players[a.target.toNat]? = some P ∧ P.enabled = false)
      ∨ 16 ≤ a.arg2.toNat
      ∨ ∃ (P : Player) (h : a.arg2.toNat < 16),
          s.players[a.target.toNat]? = some P ∧ P.chans[a.arg2.toNat] = none) →
    exec i s = .next { s with
      ring := clearOpcode s.ring s.rd
      rd := s.rd + 1
      rem := s.rem - 1
      active := decide (s.rem - 1 ≠ 0) }

/-- R177, R179 (decision D18): the channel opcodes without an operation, 0 and 7 among them, do nothing but consume
their slot, gate open or not. -/
def Obligations.ReservedChannelOpcodesOnlyConsume : Prop :=
  ∀ (s : State) (i : Instr) (op : Byte) (a : Args), s.active = true →
    i = .nop a ∨ i = .rsvdChan07 a ∨ i = .rsvdChan op a →
    exec i s = .next { s with
      ring := clearOpcode s.ring s.rd
      rd := s.rd + 1
      rem := s.rem - 1
      active := decide (s.rem - 1 ≠ 0) }

/-- The frame of the channel class, and that none of its commands clears a dirty bit or makes a channel appear or
vanish (R170 to R180): no other player, no player register, no other channel, no sound mode. -/
def Obligations.ChannelCommandsFrame : Prop :=
  ∀ (s t : State) (i : Instr) (a : Args), i.opClass = .channel → i.args? = some a → exec i s = .next t →
    t.soundMode = s.soundMode
    ∧ (∀ p, p ≠ a.target.toNat → t.players[p]? = s.players[p]?)
    ∧ ∀ P Q, s.players[a.target.toNat]? = some P → t.players[a.target.toNat]? = some Q →
        Q = { P with chans := Q.chans }
        ∧ (∀ c, c ≠ a.arg2 → Q.chan? c = P.chan? c)
        ∧ (∀ c, Q.chanPresent c = P.chanPresent c)
        ∧ ∀ c C D, P.chan? c = some C → Q.chan? c = some D →
            (C.changes.volume = true → D.changes.volume = true)
            ∧ (C.changes.pan = true → D.changes.pan = true)
            ∧ (C.changes.freqScale = true → D.changes.freqScale = true)

/-! ## The external writer -/

/-- What one write of EXT does (R38): an existing player becomes the value given, or a channel of it with an index
below 16 does, present or absent, and every other player, channel and register stays; and the writes of one EXT are
done one after the other. That EXT is a list of writes, and that a write to no player or no channel changes nothing,
is the model's choice (log entry 6). -/
def Obligations.ExtWritesItsTargetAndNothingElse : Prop :=
  ∀ (s : State) (p c : Byte) (v : Player) (w : Option Channel),
    (p.toNat < s.players.length → (applyExt [.player p v] s).players[p.toNat]? = some v)
    ∧ (∀ q, q ≠ p.toNat → (applyExt [.player p v] s).players[q]? = s.players[q]?)
    ∧ (∀ P, s.players[p.toNat]? = some P → ∃ Q,
        (applyExt [.channel p c w] s).players[p.toNat]? = some Q
        ∧ (c.toNat < 16 → Q.chan? c = w)
        ∧ (∀ d, d ≠ c → Q.chan? d = P.chan? d)
        ∧ Q = { P with chans := Q.chans })
    ∧ (∀ q, q ≠ p.toNat → (applyExt [.channel p c w] s).players[q]? = s.players[q]?)
    ∧ (s.players.length ≤ p.toNat → applyExt [.player p v] s = s)
    ∧ (s.players.length ≤ p.toNat ∨ 16 ≤ c.toNat → applyExt [.channel p c w] s = s)
    ∧ ∀ ws ws', applyExt (ws ++ ws') s = applyExt ws' (applyExt ws s)

/-- EXT can leave any values at all in `P[*]` and `CH[*][*]` (R38): every player file of the block's length is reached
by one transition, with nothing else changed. The length is at most 256 by R4. (Log entries 1 and 6: the schedule, and
EXT as a list of writes, are the model's own.) -/
def Obligations.ExtReachesEveryPlayerFile : Prop :=
  ∀ (s : State) (rest : List Event) (ps : List Player), ps.length = s.players.length → ps.length ≤ 256 →
    ∃ ws, step { s with inputs := .ext ws :: rest } = .next { s with inputs := rest, players := ps }
end

