-- ==== Sys2Proof/Laws/Memory.lean ====
section
/-! SUPPORT. The laws of the ring's memory: what is read after a write, and that every operation keeps the
canonical form. -/

namespace Sys2Proof.Machine

/-! ### One byte -/

theorem Memory.read_unlist (m : Memory) (x y : Nat) :
    (m.unlist x).read y = if y = x then 0 else m.read y := by
  induction m with
  | nil => simp [Memory.unlist, Memory.read]
  | cons c m ih =>
    obtain ⟨a, b⟩ := c
    simp only [Memory.unlist] at ih ⊢
    by_cases hax : a = x
    · subst hax
      by_cases hy : y = a
      · simp [hy] at ih ⊢
        exact ih
      · simp [hy, Memory.read, Ne.symm hy] at ih ⊢
        exact ih
    · by_cases hay : a = y
      · subst hay
        simp [hax, Memory.read]
      · simp [hax, Memory.read, hay] at ih ⊢
        exact ih

theorem Memory.read_enlist_other (m : Memory) (x y : Nat) (v : Byte) (h : y ≠ x) :
    (m.enlist x v).read y = m.read y := by
  induction m with
  | nil => simp [Memory.enlist, Memory.read, Ne.symm h]
  | cons c m ih =>
    obtain ⟨a, b⟩ := c
    unfold Memory.enlist
    split
    · simp [Memory.read, Ne.symm h]
    · simp [Memory.read, ih]

theorem Memory.read_enlist_same (m : Memory) (x : Nat) (v : Byte) (h : ∀ c ∈ m, c.1 ≠ x) :
    (m.enlist x v).read x = v := by
  induction m with
  | nil => simp [Memory.enlist, Memory.read]
  | cons c m ih =>
    obtain ⟨a, b⟩ := c
    have hne : a ≠ x := h (a, b) (by simp)
    unfold Memory.enlist
    split
    · simp [Memory.read]
    · simp only [Memory.read, hne, if_false]
      exact ih fun c hc => h c (by simp [hc])

/-- What is read after a write of one byte. -/
theorem Memory.read_write (m : Memory) (x y : Nat) (v : Byte) :
    (m.write x v).read y = if y = x then v else m.read y := by
  unfold Memory.write
  by_cases hv : v = 0
  · simp [hv, Memory.read_unlist]
  · simp only [hv, if_false]
    by_cases hy : y = x
    · subst hy
      simp only [if_true]
      exact Memory.read_enlist_same _ _ _ fun c hc => by simpa [Memory.unlist] using (List.mem_filter.mp hc).2
    · rw [Memory.read_enlist_other _ _ _ _ hy, Memory.read_unlist, if_neg hy, if_neg hy]

@[simp] theorem Memory.read_write_same (m : Memory) (x : Nat) (v : Byte) : (m.write x v).read x = v := by
  simp [Memory.read_write]

theorem Memory.read_write_other (m : Memory) (x y : Nat) (v : Byte) (h : y ≠ x) :
    (m.write x v).read y = m.read y := by
  simp [Memory.read_write, h]

/-! ### Several bytes -/

/-- A byte outside the stored ones is read as before. -/
theorem Memory.read_writeBytes_outside (bs : List Byte) (m : Memory) (x y : Nat)
    (h : y < x ∨ x + bs.length ≤ y) : (m.writeBytes x bs).read y = m.read y := by
  induction bs generalizing m x with
  | nil => rfl
  | cons b bs ih =>
    simp only [List.length_cons] at h
    unfold Memory.writeBytes
    rw [ih _ _ (by omega), Memory.read_write_other _ _ _ _ (by omega)]

/-- A stored byte is read back. -/
theorem Memory.read_writeBytes_inside (bs : List Byte) (m : Memory) (x k : Nat) (h : k < bs.length) :
    (m.writeBytes x bs).read (x + k) = bs[k] := by
  induction bs generalizing m x k with
  | nil => simp at h
  | cons b bs ih =>
    unfold Memory.writeBytes
    cases k with
    | zero => simp [Memory.read_writeBytes_outside]
    | succ k =>
      have := ih (m.write x b) (x + 1) k (by simpa using h)
      simpa [Nat.add_assoc, Nat.add_comm 1 k] using this

/-! ### The canonical form -/

theorem Memory.wfFrom_mono {m : Memory} {lo lo' : Nat} (h : lo' ≤ lo) (hm : m.wfFrom lo = true) :
    m.wfFrom lo' = true := by
  cases m with
  | nil => rfl
  | cons c m =>
    obtain ⟨a, b⟩ := c
    simp only [Memory.wfFrom, Bool.and_eq_true, decide_eq_true_eq] at hm ⊢
    exact ⟨⟨by omega, hm.1.2⟩, hm.2⟩

theorem Memory.wfFrom_unlist {m : Memory} {lo : Nat} (x : Nat) (hm : m.wfFrom lo = true) :
    (m.unlist x).wfFrom lo = true := by
  induction m generalizing lo with
  | nil => rfl
  | cons c m ih =>
    obtain ⟨a, b⟩ := c
    simp only [Memory.wfFrom, Bool.and_eq_true, decide_eq_true_eq] at hm
    have hrest := ih hm.2
    simp only [Memory.unlist] at hrest ⊢
    by_cases hax : a = x
    · simp only [List.filter_cons, hax, ne_eq, not_true_eq_false, decide_false, Bool.false_eq_true, if_false]
      subst hax
      exact Memory.wfFrom_mono (by omega) hrest
    · rw [List.filter_cons_of_pos (by simpa using hax)]
      simp only [Memory.wfFrom, Bool.and_eq_true, decide_eq_true_eq]
      exact ⟨hm.1, hrest⟩

theorem Memory.wfFrom_enlist {m : Memory} {lo : Nat} (x : Nat) (v : Byte) (hm : m.wfFrom lo = true)
    (hx : ∀ c ∈ m, c.1 ≠ x) (hlo : lo ≤ x) (hhi : x < 2048) (hv : v ≠ 0) : (m.enlist x v).wfFrom lo = true := by
  induction m generalizing lo with
  | nil =>
    simp only [Memory.enlist, Memory.wfFrom, Bool.and_true, decide_eq_true_eq]
    exact ⟨hlo, hhi, hv⟩
  | cons c m ih =>
    obtain ⟨a, b⟩ := c
    have hne : a ≠ x := hx (a, b) (by simp)
    simp only [Memory.wfFrom, Bool.and_eq_true, decide_eq_true_eq] at hm
    unfold Memory.enlist
    split
    · next hlt =>
      simp only [Memory.wfFrom, Bool.and_eq_true, decide_eq_true_eq]
      exact ⟨⟨hlo, hhi, hv⟩, ⟨by omega, hm.1.2⟩, hm.2⟩
    · next hge =>
      simp only [Memory.wfFrom, Bool.and_eq_true, decide_eq_true_eq]
      exact ⟨hm.1, ih hm.2 (fun c hc => hx c (by simp [hc])) (by omega)⟩

/-- A write inside the ring keeps the canonical form. -/
theorem Memory.wf_write {m : Memory} (x : Nat) (v : Byte) (hm : m.wf = true) (hx : x < 2048) :
    (m.write x v).wf = true := by
  unfold Memory.write
  split
  · exact Memory.wfFrom_unlist x hm
  · next hv =>
    exact Memory.wfFrom_enlist x v (Memory.wfFrom_unlist x hm)
      (fun c hc => by simpa [Memory.unlist] using (List.mem_filter.mp hc).2) (Nat.zero_le x) hx hv

/-- So does a write of several bytes. -/
theorem Memory.wf_writeBytes {m : Memory} (x : Nat) (bs : List Byte) (hm : m.wf = true)
    (hx : x + bs.length ≤ 2048) : (m.writeBytes x bs).wf = true := by
  induction bs generalizing m x with
  | nil => exact hm
  | cons b bs ih =>
    simp only [List.length_cons] at hx
    exact ih (x + 1) (Memory.wf_write x b hm (by omega)) (by omega)

theorem Memory.unlist_of_read_zero {m : Memory} {lo : Nat} (x : Nat) (hm : m.wfFrom lo = true)
    (h : m.read x = 0) : m.unlist x = m := by
  induction m generalizing lo with
  | nil => rfl
  | cons c m ih =>
    obtain ⟨a, b⟩ := c
    simp only [Memory.wfFrom, Bool.and_eq_true, decide_eq_true_eq] at hm
    by_cases hax : a = x
    · simp only [Memory.read, hax, if_true] at h
      exact absurd h hm.1.2.2
    · simp only [Memory.read, hax, if_false] at h
      have := ih hm.2 h
      simp only [Memory.unlist] at this ⊢
      rw [List.filter_cons_of_pos (by simpa using hax), this]

/-- Writing a 0 where a 0 is read changes nothing. -/
theorem Memory.write_zero_of_read_zero {m : Memory} (x : Nat) (hm : m.wf = true) (h : m.read x = 0) :
    m.write x 0 = m := by
  simpa [Memory.write] using Memory.unlist_of_read_zero x hm h

/-! ### Slots -/

theorem slotAddr_lt (slot : Byte) : slotAddr slot + 8 ≤ 2048 := by
  have := slot.isLt
  unfold slotAddr
  omega

/-- Two slots have no byte in common. -/
theorem slotAddr_disjoint {slot slot' : Byte} (h : slot ≠ slot') :
    slotAddr slot + 8 ≤ slotAddr slot' ∨ slotAddr slot' + 8 ≤ slotAddr slot := by
  have : slot.toNat ≠ slot'.toNat := fun e => h (BitVec.eq_of_toNat_eq e)
  unfold slotAddr
  omega

theorem Rec.ofEight_toBytes (r : Rec) :
    Rec.ofEight r.opcode r.target r.arg2 r.arg3 (r.payload.extractLsb' 24 8) (r.payload.extractLsb' 16 8)
      (r.payload.extractLsb' 8 8) (r.payload.extractLsb' 0 8) = r := by
  obtain ⟨⟨tg, a2, a3, pl⟩, op⟩ := r
  simp only [Rec.ofEight, Rec.mk.injEq, Args.mk.injEq, true_and, and_true]
  apply BitVec.eq_of_getLsbD_eq
  intro i hi
  simp only [BitVec.getLsbD_append, BitVec.getLsbD_extractLsb']
  split
  · next h => simp [h]
  · split
    · next h1 h2 => simp only [h2, decide_true, Bool.true_and]; congr 1; omega
    · split
      · next h1 h2 h3 => simp only [h3, decide_true, Bool.true_and]; congr 1; omega
      · next h1 h2 h3 =>
        have : i - 8 - 8 - 8 < 8 := by omega
        simp only [this, decide_true, Bool.true_and]; congr 1; omega

/-- The record stored in a slot is read back. -/
theorem ringRecord_ringStore_same (m : Memory) (slot : Byte) (r : Rec) :
    ringRecord (ringStore m slot r) slot = r := by
  have h (k : Nat) (hk : k < 8) := Memory.read_writeBytes_inside r.toBytes m (slotAddr slot) k hk
  have h0 := h 0 (by omega)
  have h1 := h 1 (by omega)
  have h2 := h 2 (by omega)
  have h3 := h 3 (by omega)
  have h4 := h 4 (by omega)
  have h5 := h 5 (by omega)
  have h6 := h 6 (by omega)
  have h7 := h 7 (by omega)
  simp only [Nat.add_zero] at h0
  unfold ringRecord ringStore
  rw [h0, h1, h2, h3, h4, h5, h6, h7]
  exact Rec.ofEight_toBytes r

/-- Bytes outside a slot stay when a record is stored in it. -/
theorem read_ringStore_outside (m : Memory) (slot : Byte) (r : Rec) (y : Nat)
    (h : y < slotAddr slot ∨ slotAddr slot + 8 ≤ y) : (ringStore m slot r).read y = m.read y :=
  Memory.read_writeBytes_outside r.toBytes m (slotAddr slot) y h

/-- Two memories that agree on the bytes of a slot hold the same record there. -/
theorem ringRecord_congr {m m' : Memory} {slot : Byte}
    (h : ∀ y, slotAddr slot ≤ y → y < slotAddr slot + 8 → m.read y = m'.read y) :
    ringRecord m slot = ringRecord m' slot := by
  unfold ringRecord
  rw [h _ (by omega) (by omega), h (slotAddr slot + 1) (by omega) (by omega),
    h (slotAddr slot + 2) (by omega) (by omega), h (slotAddr slot + 3) (by omega) (by omega),
    h (slotAddr slot + 4) (by omega) (by omega), h (slotAddr slot + 5) (by omega) (by omega),
    h (slotAddr slot + 6) (by omega) (by omega), h (slotAddr slot + 7) (by omega) (by omega)]

/-- Other slots keep their record when one is stored. -/
theorem ringRecord_ringStore_other (m : Memory) {slot slot' : Byte} (r : Rec) (h : slot' ≠ slot) :
    ringRecord (ringStore m slot r) slot' = ringRecord m slot' := by
  apply ringRecord_congr
  intro y h1 h2
  apply read_ringStore_outside
  have := slotAddr_disjoint h
  omega

/-- Clearing a slot's opcode touches that byte alone. -/
theorem read_clearOpcode (m : Memory) (slot : Byte) (y : Nat) :
    (clearOpcode m slot).read y = if y = slotAddr slot then 0 else m.read y :=
  Memory.read_write m (slotAddr slot) y 0

theorem ringRecord_clearOpcode_same (m : Memory) (slot : Byte) :
    ringRecord (clearOpcode m slot) slot = { ringRecord m slot with opcode := 0 } := by
  simp [ringRecord, read_clearOpcode, Rec.ofEight]

theorem ringRecord_clearOpcode_other (m : Memory) {slot slot' : Byte} (h : slot' ≠ slot) :
    ringRecord (clearOpcode m slot) slot' = ringRecord m slot' := by
  apply ringRecord_congr
  intro y h1 h2
  rw [read_clearOpcode, if_neg]
  have := slotAddr_disjoint h
  omega

theorem wf_ringStore {m : Memory} (slot : Byte) (r : Rec) (hm : m.wf = true) :
    (ringStore m slot r).wf = true :=
  Memory.wf_writeBytes _ _ hm (slotAddr_lt slot)

theorem wf_clearOpcode {m : Memory} (slot : Byte) (hm : m.wf = true) : (clearOpcode m slot).wf = true :=
  Memory.wf_write _ _ hm (by have := slotAddr_lt slot; omega)

/-- The eight bytes of a slot, as `MemRead` gives them, are one record and no byte more. -/
theorem ofBytes_readBytes_slot (m : Memory) (slot : Byte) :
    Rec.ofBytes (m.readBytes (slotAddr slot) 8) = .ok (ringRecord m slot, []) := rfl

end Sys2Proof.Machine
end

