-- ==== Sys2Proof/Laws/Decode.lean ====
section
/-! SUPPORT. The small lemmas of the record layout, the decoder and the encoder. -/

namespace Sys2Proof

@[simp] theorem Args.withOpcode_toArgs (a : Args) (op : Byte) : (a.withOpcode op).toArgs = a := rfl

@[simp] theorem Args.withOpcode_opcode (a : Args) (op : Byte) : (a.withOpcode op).opcode = op := rfl

@[simp] theorem Rec.toArgs_withOpcode (r : Rec) : r.toArgs.withOpcode r.opcode = r := rfl

@[simp] theorem Rec.toBytes_length (r : Rec) : r.toBytes.length = 8 := rfl

/-- The bytes of a record are read back as that record, whatever follows. -/
theorem Rec.ofBytes_toBytes (r : Rec) (rest : List Byte) : Rec.ofBytes (r.toBytes ++ rest) = .ok (r, rest) := by
  have h := Machine.Rec.ofEight_toBytes r
  simp only [Rec.toBytes, List.cons_append, List.nil_append, Rec.ofBytes, h]

/-- The fields of a record number are the fields it was made of. -/
theorem Rec.ofWord_toWord (r : Rec) : Rec.ofWord r.toWord = r := by
  obtain ⟨⟨tg, a2, a3, pl⟩, op⟩ := r
  simp only [Rec.ofWord, Rec.toWord, Rec.mk.injEq, Args.mk.injEq]
  refine ⟨⟨?_, ?_, ?_, ?_⟩, ?_⟩ <;>
  · apply BitVec.eq_of_getLsbD_eq
    intro i hi
    simp only [BitVec.getLsbD_extractLsb', BitVec.getLsbD_append, hi, decide_true, Bool.true_and]
    repeat' split
    all_goals first | omega | (congr 1; omega)

theorem decode_toBytes (r : Rec) (rest : List Byte) : decode (r.toBytes ++ rest) = .ok (decodeRec r, rest) := by
  simp [decode, Rec.ofBytes_toBytes]

/-- The eight bytes of a slot decode to the instruction of its record. -/
theorem decode_readBytes_slot (m : Machine.Memory) (slot : Byte) :
    decode (m.readBytes (Machine.slotAddr slot) 8) = .ok (decodeRec (Machine.ringRecord m slot), []) := rfl

/-- A table word within the record's 64 bits decodes to the instruction of its record. -/
theorem decodeTableWord_eq {nbits w : Nat} (h : nbits ≤ 64) :
    decodeTableWord nbits w = some (decodeRec (tableRecord nbits w)) := by
  have hd := decode_toBytes (tableRecord nbits w) []
  rw [List.append_nil] at hd
  unfold decodeTableWord
  simp [h, hd]

theorem decodeTableWord_some {nbits w : Nat} {i : Instr} (h : decodeTableWord nbits w = some i) :
    i = decodeRec (tableRecord nbits w) := by
  by_cases hn : nbits ≤ 64
  · rw [decodeTableWord_eq hn] at h
    exact (Option.some.inj h).symm
  · simp [decodeTableWord, hn] at h

end Sys2Proof
end

