-- ==== Sys2Proof/Laws/State.lean ====
section
/-! SUPPORT. One lemma per field of the state for each named update, so that no later proof unfolds one; and the
fields of the player and channel updates. -/

namespace Sys2Proof.Machine

/-! ### `retire` -/

@[simp] theorem retire_ring (term : Bool) (s : State) :
    (retire term s).ring = clearOpcode s.ring s.rd := rfl

@[simp] theorem retire_wr (term : Bool) (s : State) :
    (retire term s).wr = s.wr := rfl

@[simp] theorem retire_pub (term : Bool) (s : State) :
    (retire term s).pub = s.pub := rfl

@[simp] theorem retire_lap (term : Bool) (s : State) :
    (retire term s).lap = s.lap := rfl

@[simp] theorem retire_hwm (term : Bool) (s : State) :
    (retire term s).hwm = s.hwm := rfl

@[simp] theorem retire_mbox (term : Bool) (s : State) :
    (retire term s).mbox = s.mbox := rfl

@[simp] theorem retire_active (term : Bool) (s : State) :
    (retire term s).active = activeFor (remAfterStep term s.rem) := rfl

@[simp] theorem retire_rd (term : Bool) (s : State) :
    (retire term s).rd = s.rd + 1 := rfl

@[simp] theorem retire_rem (term : Bool) (s : State) :
    (retire term s).rem = remAfterStep term s.rem := rfl

@[simp] theorem retire_soundMode (term : Bool) (s : State) :
    (retire term s).soundMode = s.soundMode := rfl

@[simp] theorem retire_players (term : Bool) (s : State) :
    (retire term s).players = s.players := rfl

@[simp] theorem retire_ticksPerBeat (term : Bool) (s : State) :
    (retire term s).ticksPerBeat = s.ticksPerBeat := rfl

@[simp] theorem retire_inputs (term : Bool) (s : State) :
    (retire term s).inputs = s.inputs := rfl

/-! ### `modifyPlayer` -/

@[simp] theorem modifyPlayer_ring (p : Byte) (f : Player → Player) (s : State) :
    (modifyPlayer p f s).ring = s.ring := rfl

@[simp] theorem modifyPlayer_wr (p : Byte) (f : Player → Player) (s : State) :
    (modifyPlayer p f s).wr = s.wr := rfl

@[simp] theorem modifyPlayer_pub (p : Byte) (f : Player → Player) (s : State) :
    (modifyPlayer p f s).pub = s.pub := rfl

@[simp] theorem modifyPlayer_lap (p : Byte) (f : Player → Player) (s : State) :
    (modifyPlayer p f s).lap = s.lap := rfl

@[simp] theorem modifyPlayer_hwm (p : Byte) (f : Player → Player) (s : State) :
    (modifyPlayer p f s).hwm = s.hwm := rfl

@[simp] theorem modifyPlayer_mbox (p : Byte) (f : Player → Player) (s : State) :
    (modifyPlayer p f s).mbox = s.mbox := rfl

@[simp] theorem modifyPlayer_active (p : Byte) (f : Player → Player) (s : State) :
    (modifyPlayer p f s).active = s.active := rfl

@[simp] theorem modifyPlayer_rd (p : Byte) (f : Player → Player) (s : State) :
    (modifyPlayer p f s).rd = s.rd := rfl

@[simp] theorem modifyPlayer_rem (p : Byte) (f : Player → Player) (s : State) :
    (modifyPlayer p f s).rem = s.rem := rfl

@[simp] theorem modifyPlayer_soundMode (p : Byte) (f : Player → Player) (s : State) :
    (modifyPlayer p f s).soundMode = s.soundMode := rfl

@[simp] theorem modifyPlayer_players (p : Byte) (f : Player → Player) (s : State) :
    (modifyPlayer p f s).players = s.players.modify p.toNat f := rfl

@[simp] theorem modifyPlayer_ticksPerBeat (p : Byte) (f : Player → Player) (s : State) :
    (modifyPlayer p f s).ticksPerBeat = s.ticksPerBeat := rfl

@[simp] theorem modifyPlayer_inputs (p : Byte) (f : Player → Player) (s : State) :
    (modifyPlayer p f s).inputs = s.inputs := rfl

/-! ### `modifyAllPlayers` -/

@[simp] theorem modifyAllPlayers_ring (f : Player → Player) (s : State) :
    (modifyAllPlayers f s).ring = s.ring := rfl

@[simp] theorem modifyAllPlayers_wr (f : Player → Player) (s : State) :
    (modifyAllPlayers f s).wr = s.wr := rfl

@[simp] theorem modifyAllPlayers_pub (f : Player → Player) (s : State) :
    (modifyAllPlayers f s).pub = s.pub := rfl

@[simp] theorem modifyAllPlayers_lap (f : Player → Player) (s : State) :
    (modifyAllPlayers f s).lap = s.lap := rfl

@[simp] theorem modifyAllPlayers_hwm (f : Player → Player) (s : State) :
    (modifyAllPlayers f s).hwm = s.hwm := rfl

@[simp] theorem modifyAllPlayers_mbox (f : Player → Player) (s : State) :
    (modifyAllPlayers f s).mbox = s.mbox := rfl

@[simp] theorem modifyAllPlayers_active (f : Player → Player) (s : State) :
    (modifyAllPlayers f s).active = s.active := rfl

@[simp] theorem modifyAllPlayers_rd (f : Player → Player) (s : State) :
    (modifyAllPlayers f s).rd = s.rd := rfl

@[simp] theorem modifyAllPlayers_rem (f : Player → Player) (s : State) :
    (modifyAllPlayers f s).rem = s.rem := rfl

@[simp] theorem modifyAllPlayers_soundMode (f : Player → Player) (s : State) :
    (modifyAllPlayers f s).soundMode = s.soundMode := rfl

@[simp] theorem modifyAllPlayers_players (f : Player → Player) (s : State) :
    (modifyAllPlayers f s).players = s.players.map f := rfl

@[simp] theorem modifyAllPlayers_ticksPerBeat (f : Player → Player) (s : State) :
    (modifyAllPlayers f s).ticksPerBeat = s.ticksPerBeat := rfl

@[simp] theorem modifyAllPlayers_inputs (f : Player → Player) (s : State) :
    (modifyAllPlayers f s).inputs = s.inputs := rfl

/-! ### `runHook` -/

@[simp] theorem runHook_ring (h : List Player → Nat → Player) (s : State) :
    (runHook h s).ring = s.ring := rfl

@[simp] theorem runHook_wr (h : List Player → Nat → Player) (s : State) :
    (runHook h s).wr = s.wr := rfl

@[simp] theorem runHook_pub (h : List Player → Nat → Player) (s : State) :
    (runHook h s).pub = s.pub := rfl

@[simp] theorem runHook_lap (h : List Player → Nat → Player) (s : State) :
    (runHook h s).lap = s.lap := rfl

@[simp] theorem runHook_hwm (h : List Player → Nat → Player) (s : State) :
    (runHook h s).hwm = s.hwm := rfl

@[simp] theorem runHook_mbox (h : List Player → Nat → Player) (s : State) :
    (runHook h s).mbox = s.mbox := rfl

@[simp] theorem runHook_active (h : List Player → Nat → Player) (s : State) :
    (runHook h s).active = s.active := rfl

@[simp] theorem runHook_rd (h : List Player → Nat → Player) (s : State) :
    (runHook h s).rd = s.rd := rfl

@[simp] theorem runHook_rem (h : List Player → Nat → Player) (s : State) :
    (runHook h s).rem = s.rem := rfl

@[simp] theorem runHook_soundMode (h : List Player → Nat → Player) (s : State) :
    (runHook h s).soundMode = s.soundMode := rfl

@[simp] theorem runHook_players (h : List Player → Nat → Player) (s : State) :
    (runHook h s).players = s.players.mapIdx fun p _ => h s.players p := rfl

@[simp] theorem runHook_ticksPerBeat (h : List Player → Nat → Player) (s : State) :
    (runHook h s).ticksPerBeat = s.ticksPerBeat := rfl

@[simp] theorem runHook_inputs (h : List Player → Nat → Player) (s : State) :
    (runHook h s).inputs = s.inputs := rfl

/-! ### `modifyChannel` -/

@[simp] theorem modifyChannel_ring (p c : Byte) (f : Channel → Channel) (s : State) :
    (modifyChannel p c f s).ring = s.ring := rfl

@[simp] theorem modifyChannel_wr (p c : Byte) (f : Channel → Channel) (s : State) :
    (modifyChannel p c f s).wr = s.wr := rfl

@[simp] theorem modifyChannel_pub (p c : Byte) (f : Channel → Channel) (s : State) :
    (modifyChannel p c f s).pub = s.pub := rfl

@[simp] theorem modifyChannel_lap (p c : Byte) (f : Channel → Channel) (s : State) :
    (modifyChannel p c f s).lap = s.lap := rfl

@[simp] theorem modifyChannel_hwm (p c : Byte) (f : Channel → Channel) (s : State) :
    (modifyChannel p c f s).hwm = s.hwm := rfl

@[simp] theorem modifyChannel_mbox (p c : Byte) (f : Channel → Channel) (s : State) :
    (modifyChannel p c f s).mbox = s.mbox := rfl

@[simp] theorem modifyChannel_active (p c : Byte) (f : Channel → Channel) (s : State) :
    (modifyChannel p c f s).active = s.active := rfl

@[simp] theorem modifyChannel_rd (p c : Byte) (f : Channel → Channel) (s : State) :
    (modifyChannel p c f s).rd = s.rd := rfl

@[simp] theorem modifyChannel_rem (p c : Byte) (f : Channel → Channel) (s : State) :
    (modifyChannel p c f s).rem = s.rem := rfl

@[simp] theorem modifyChannel_soundMode (p c : Byte) (f : Channel → Channel) (s : State) :
    (modifyChannel p c f s).soundMode = s.soundMode := rfl

@[simp] theorem modifyChannel_players (p c : Byte) (f : Channel → Channel) (s : State) :
    (modifyChannel p c f s).players = s.players.modify p.toNat (Player.modifyChannel c f) := rfl

@[simp] theorem modifyChannel_ticksPerBeat (p c : Byte) (f : Channel → Channel) (s : State) :
    (modifyChannel p c f s).ticksPerBeat = s.ticksPerBeat := rfl

@[simp] theorem modifyChannel_inputs (p c : Byte) (f : Channel → Channel) (s : State) :
    (modifyChannel p c f s).inputs = s.inputs := rfl

/-! ### `soundModeEffect` -/

@[simp] theorem soundModeEffect_ring (a : Args) (s : State) :
    (soundModeEffect a s).ring = s.ring := rfl

@[simp] theorem soundModeEffect_wr (a : Args) (s : State) :
    (soundModeEffect a s).wr = s.wr := rfl

@[simp] theorem soundModeEffect_pub (a : Args) (s : State) :
    (soundModeEffect a s).pub = s.pub := rfl

@[simp] theorem soundModeEffect_lap (a : Args) (s : State) :
    (soundModeEffect a s).lap = s.lap := rfl

@[simp] theorem soundModeEffect_hwm (a : Args) (s : State) :
    (soundModeEffect a s).hwm = s.hwm := rfl

@[simp] theorem soundModeEffect_mbox (a : Args) (s : State) :
    (soundModeEffect a s).mbox = s.mbox := rfl

@[simp] theorem soundModeEffect_active (a : Args) (s : State) :
    (soundModeEffect a s).active = s.active := rfl

@[simp] theorem soundModeEffect_rd (a : Args) (s : State) :
    (soundModeEffect a s).rd = s.rd := rfl

@[simp] theorem soundModeEffect_rem (a : Args) (s : State) :
    (soundModeEffect a s).rem = s.rem := rfl

@[simp] theorem soundModeEffect_soundMode (a : Args) (s : State) :
    (soundModeEffect a s).soundMode = a.payload := rfl

@[simp] theorem soundModeEffect_players (a : Args) (s : State) :
    (soundModeEffect a s).players = s.players := rfl

@[simp] theorem soundModeEffect_ticksPerBeat (a : Args) (s : State) :
    (soundModeEffect a s).ticksPerBeat = s.ticksPerBeat := rfl

@[simp] theorem soundModeEffect_inputs (a : Args) (s : State) :
    (soundModeEffect a s).inputs = s.inputs := rfl

/-! ### `resetBlock` -/

@[simp] theorem resetBlock_ring (s : State) :
    (resetBlock s).ring = [] := rfl

@[simp] theorem resetBlock_wr (s : State) :
    (resetBlock s).wr = 0 := rfl

@[simp] theorem resetBlock_pub (s : State) :
    (resetBlock s).pub = 0 := rfl

@[simp] theorem resetBlock_lap (s : State) :
    (resetBlock s).lap = false := rfl

@[simp] theorem resetBlock_hwm (s : State) :
    (resetBlock s).hwm = 0 := rfl

@[simp] theorem resetBlock_mbox (s : State) :
    (resetBlock s).mbox = [] := rfl

@[simp] theorem resetBlock_active (s : State) :
    (resetBlock s).active = false := rfl

@[simp] theorem resetBlock_rd (s : State) :
    (resetBlock s).rd = 0 := rfl

@[simp] theorem resetBlock_rem (s : State) :
    (resetBlock s).rem = 0 := rfl

@[simp] theorem resetBlock_soundMode (s : State) :
    (resetBlock s).soundMode = 0 := rfl

@[simp] theorem resetBlock_players (s : State) :
    (resetBlock s).players = List.replicate s.players.length Player.reset := rfl

@[simp] theorem resetBlock_ticksPerBeat (s : State) :
    (resetBlock s).ticksPerBeat = s.ticksPerBeat := rfl

@[simp] theorem resetBlock_inputs (s : State) :
    (resetBlock s).inputs = s.inputs := rfl

/-! ### `withFetchWord` -/

@[simp] theorem withFetchWord_ring (s : State) (nbits w : Nat) :
    (s.withFetchWord nbits w).ring = ringStore s.ring s.rd (tableRecord nbits w) := rfl

@[simp] theorem withFetchWord_wr (s : State) (nbits w : Nat) :
    (s.withFetchWord nbits w).wr = s.wr := rfl

@[simp] theorem withFetchWord_pub (s : State) (nbits w : Nat) :
    (s.withFetchWord nbits w).pub = s.pub := rfl

@[simp] theorem withFetchWord_lap (s : State) (nbits w : Nat) :
    (s.withFetchWord nbits w).lap = s.lap := rfl

@[simp] theorem withFetchWord_hwm (s : State) (nbits w : Nat) :
    (s.withFetchWord nbits w).hwm = s.hwm := rfl

@[simp] theorem withFetchWord_mbox (s : State) (nbits w : Nat) :
    (s.withFetchWord nbits w).mbox = s.mbox := rfl

@[simp] theorem withFetchWord_active (s : State) (nbits w : Nat) :
    (s.withFetchWord nbits w).active = true := rfl

@[simp] theorem withFetchWord_rd (s : State) (nbits w : Nat) :
    (s.withFetchWord nbits w).rd = s.rd := rfl

@[simp] theorem withFetchWord_rem (s : State) (nbits w : Nat) :
    (s.withFetchWord nbits w).rem = if s.rem = 0 then 1 else s.rem := rfl

@[simp] theorem withFetchWord_soundMode (s : State) (nbits w : Nat) :
    (s.withFetchWord nbits w).soundMode = s.soundMode := rfl

@[simp] theorem withFetchWord_players (s : State) (nbits w : Nat) :
    (s.withFetchWord nbits w).players = s.players := rfl

@[simp] theorem withFetchWord_ticksPerBeat (s : State) (nbits w : Nat) :
    (s.withFetchWord nbits w).ticksPerBeat = s.ticksPerBeat := rfl

@[simp] theorem withFetchWord_inputs (s : State) (nbits w : Nat) :
    (s.withFetchWord nbits w).inputs = .step :: s.inputs := rfl

/-! ### Predicates that read only the player file -/

theorem playerCount_eq (s : State) : s.playerCount = s.players.length := rfl

/-! ### Player and channel updates -/

theorem Player.modifyChannel_eq (c : Byte) (f : Channel → Channel) (P : Player) :
    Player.modifyChannel c f P = { P with chans := (Player.modifyChannel c f P).chans } := by
  unfold Player.modifyChannel
  split <;> rfl

theorem Player.modifyChannel_of_lt (c : Byte) (f : Channel → Channel) (P : Player) (h : c.toNat < 16) :
    Player.modifyChannel c f P = { P with chans := P.chans.set c.toNat (P.chans[c.toNat].map f) } := by
  simp [Player.modifyChannel, h]

/-- One channel read after a write to one. -/
theorem Player.chan?_modifyChannel (c d : Byte) (f : Channel → Channel) (P : Player) :
    (Player.modifyChannel c f P).chan? d = if d = c then (P.chan? c).map f else P.chan? d := by
  by_cases hc : c.toNat < 16
  · rw [Player.modifyChannel_of_lt c f P hc]
    unfold Player.chan?
    by_cases hd : d = c
    · subst hd
      simp [hc]
    · have hne : c.toNat ≠ d.toNat := fun h => hd (BitVec.eq_of_toNat_eq h.symm)
      by_cases hd16 : d.toNat < 16
      · simp [hd, hd16, hne]
      · simp [hd, hd16]
  · unfold Player.modifyChannel Player.chan?
    by_cases hd : d = c
    · subst hd
      simp [hc]
    · simp [hc, hd]

@[simp] theorem Player.markVolDirty_volDirty (P : Player) : P.markVolDirty.volDirty = true := rfl

@[simp] theorem Changes.markVolume_volume (c : Changes) : c.markVolume.volume = true := rfl

@[simp] theorem Changes.markPan_pan (c : Changes) : c.markPan.pan = true := rfl

@[simp] theorem Changes.markFreqScale_freqScale (c : Changes) : c.markFreqScale.freqScale = true := rfl

/-! ### What a state is, field by field -/

/-- Two states with equal fields are equal. -/
theorem State.eq_of_fields {s t : State} (h1 : s.ring = t.ring) (h2 : s.wr = t.wr) (h3 : s.pub = t.pub)
    (h4 : s.lap = t.lap) (h5 : s.hwm = t.hwm) (h6 : s.mbox = t.mbox) (h7 : s.active = t.active)
    (h8 : s.rd = t.rd) (h9 : s.rem = t.rem) (h10 : s.soundMode = t.soundMode) (h11 : s.players = t.players)
    (h12 : s.ticksPerBeat = t.ticksPerBeat) (h13 : s.inputs = t.inputs) : s = t := by
  cases s
  cases t
  simp_all

end Sys2Proof.Machine
end

