-- ==== Sys2Proof/Laws/Ops.lean ====
section
/-! SUPPORT. One lemma for each shared operation: what `interpret`, the gates, the player and channel writes and the
hooks can do, and that no command's effect reaches past the sequencer registers. -/

namespace Sys2Proof.Machine

/-! ### `interpret`: the shape of every command -/

theorem interpret_active {term : Bool} {effect : State → State} {s : State} (h : s.active = true) :
    interpret term effect s = .next (retire term (effect s)) := by
  simp [interpret, h]

theorem interpret_inactive {term : Bool} {effect : State → State} {s : State} (h : s.active = false) :
    interpret term effect s = .next s := by
  simp [interpret, h]

/-- All that `interpret` can do. -/
theorem interpret_cases {term : Bool} {effect : State → State} {s t : State}
    (h : interpret term effect s = .next t) :
    (s.active = true ∧ t = retire term (effect s)) ∨ (s.active = false ∧ t = s) := by
  cases ha : s.active
  · rw [interpret_inactive ha] at h
    exact .inr ⟨rfl, by cases h; rfl⟩
  · rw [interpret_active ha] at h
    exact .inl ⟨rfl, by cases h; rfl⟩

@[simp] theorem remAfterStep_true (rem : BitVec 9) : remAfterStep true rem = 0 := rfl

@[simp] theorem remAfterStep_false (rem : BitVec 9) : remAfterStep false rem = rem - 1 := rfl

@[simp] theorem activeFor_zero : activeFor 0 = false := rfl

theorem activeFor_eq_true {rem : BitVec 9} : activeFor rem = true ↔ rem ≠ 0 := by
  simp [activeFor]

/-- The high-water mark covers its old value and the new depth (R25, R101). -/
theorem le_hwmAfterPub (hwm depth : Byte) : hwm ≤ hwmAfterPub hwm depth ∧ depth ≤ hwmAfterPub hwm depth := by
  unfold hwmAfterPub
  split <;> constructor <;> bv_omega

/-- A message's range has at most 256 slots (R87). -/
theorem Msg.count_le (m : Msg) : m.count ≤ 256#9 := by
  unfold Msg.count
  split
  · decide
  · have := (m.stop - m.start).isLt
    rw [BitVec.le_def, BitVec.toNat_setWidth, Nat.mod_eq_of_lt (by omega)]
    exact Nat.le_of_lt this

/-! ### What an effect may change (R105, R147) -/

/-- The effect writes `soundMode` and the players and nothing else, and keeps their number. -/
def KeepsQueue (effect : State → State) : Prop :=
  ∀ s, ∃ mode ps, ps.length = s.players.length ∧ effect s = { s with soundMode := mode, players := ps }

theorem KeepsQueue.eq {effect : State → State} (h : KeepsQueue effect) (s : State) :
    effect s = { s with soundMode := (effect s).soundMode, players := (effect s).players } := by
  obtain ⟨mode, ps, -, he⟩ := h s
  rw [he]

theorem KeepsQueue.length_eq {effect : State → State} (h : KeepsQueue effect) (s : State) :
    (effect s).players.length = s.players.length := by
  obtain ⟨mode, ps, hl, he⟩ := h s
  rw [he]
  exact hl

theorem keepsQueue_id : KeepsQueue id := fun _ => ⟨_, _, rfl, rfl⟩

theorem keepsQueue_modifyPlayer (p : Byte) (f : Player → Player) : KeepsQueue (modifyPlayer p f) :=
  fun _ => ⟨_, _, by simp, rfl⟩

theorem keepsQueue_modifyChannel (p c : Byte) (f : Channel → Channel) : KeepsQueue (modifyChannel p c f) :=
  fun _ => ⟨_, _, by simp, rfl⟩

theorem keepsQueue_modifyAllPlayers (f : Player → Player) : KeepsQueue (modifyAllPlayers f) :=
  fun s => ⟨s.soundMode, s.players.map f, by simp, rfl⟩

theorem keepsQueue_runHook (h : List Player → Nat → Player) : KeepsQueue (runHook h) :=
  fun s => ⟨s.soundMode, s.players.mapIdx fun p _ => h s.players p, by simp, rfl⟩

theorem keepsQueue_soundModeEffect (a : Args) : KeepsQueue (soundModeEffect a) := fun _ => ⟨_, _, rfl, rfl⟩

theorem KeepsQueue.comp {f g : State → State} (hf : KeepsQueue f) (hg : KeepsQueue g) :
    KeepsQueue (fun s => f (g s)) := by
  intro s
  obtain ⟨m1, ps1, hl1, h1⟩ := hg s
  obtain ⟨m2, ps2, hl2, h2⟩ := hf (g s)
  refine ⟨m2, ps2, ?_, ?_⟩
  · rw [hl2, h1]
    exact hl1
  · rw [h1] at h2 hl2
    change f (g s) = _
    rw [h1, h2]

theorem KeepsQueue.ite {f g : State → State} (c : State → Bool) (hf : KeepsQueue f) (hg : KeepsQueue g) :
    KeepsQueue (fun s => if c s then f s else g s) := by
  intro s
  cases h : c s
  · simpa [h] using hg s
  · simpa [h] using hf s

theorem KeepsQueue.gatedByPlayer {f : State → State} (a : Args) (hf : KeepsQueue f) :
    KeepsQueue (gatedByPlayer a f) :=
  KeepsQueue.ite (fun s => playerExists s a.target) hf keepsQueue_id

theorem KeepsQueue.gatedByChannel {f : State → State} (a : Args) (hf : KeepsQueue f) :
    KeepsQueue (gatedByChannel a f) :=
  KeepsQueue.ite (fun s => channelGate s a) hf keepsQueue_id

theorem keepsQueue_fadeIn (p : Byte) (d : Word) : KeepsQueue (fadeIn p d) := keepsQueue_modifyPlayer _ _

theorem keepsQueue_fadeToZero (p : Byte) (d : Word) : KeepsQueue (fadeToZero p d) := keepsQueue_modifyPlayer _ _

theorem keepsQueue_stopPlayer (p : Byte) : KeepsQueue (stopPlayer p) :=
  (keepsQueue_modifyPlayer _ _).comp (keepsQueue_runHook _)

theorem keepsQueue_loadFadeInEffect (op : Byte) (a : Args) : KeepsQueue (loadFadeInEffect op a) :=
  (keepsQueue_fadeIn _ _).comp (keepsQueue_runHook _)

theorem keepsQueue_stopFadeEffect (a : Args) : KeepsQueue (stopFadeEffect a) := by
  intro s
  by_cases h : asInt32 a.payload = 0
  · rw [stopFadeEffect, if_pos h]
    exact keepsQueue_stopPlayer a.target s
  · rw [stopFadeEffect, if_neg h]
    exact keepsQueue_fadeToZero a.target (asInt32 a.payload) s

theorem keepsQueue_tempoEffect (a : Args) : KeepsQueue (tempoEffect a) := fun s => keepsQueue_modifyPlayer _ _ s

/-- What `retire` leaves of the state after an effect, written over the state before it. -/
theorem KeepsQueue.retire_eq {effect : State → State} (h : KeepsQueue effect) (term : Bool) (s : State) :
    retire term (effect s) = { s with
      soundMode := (effect s).soundMode
      players := (effect s).players
      ring := clearOpcode s.ring s.rd
      rd := s.rd + 1
      rem := remAfterStep term s.rem
      active := activeFor (remAfterStep term s.rem) } := by
  obtain ⟨mode, ps, -, he⟩ := h s
  rw [he]
  rfl

/-! ### The gates -/

theorem playerExists_iff {s : State} {p : Byte} : playerExists s p = true ↔ p.toNat < s.players.length :=
  decide_eq_true_iff

theorem gatedByPlayer_of_lt {a : Args} {f : State → State} {s : State} (h : a.target.toNat < s.players.length) :
    gatedByPlayer a f s = f s := by
  simp [gatedByPlayer, playerExists_iff.mpr h]

theorem gatedByPlayer_of_le {a : Args} {f : State → State} {s : State} (h : s.players.length ≤ a.target.toNat) :
    gatedByPlayer a f s = s := by
  have : ¬playerExists s a.target = true := fun hp => absurd (playerExists_iff.mp hp) (Nat.not_lt.mpr h)
  simp [gatedByPlayer, this]

/-- The channel gate is open exactly when the player exists and is enabled and the channel is present (R170). -/
theorem channelGate_iff {s : State} {a : Args} :
    channelGate s a = true ↔
      ∃ (P : Player) (C : Channel) (h : a.arg2.toNat < 16),
        s.players[a.target.toNat]? = some P ∧ P.enabled = true ∧ P.chans[a.arg2.toNat] = some C := by
  unfold channelGate playerEnabled channelPresent
  simp only [Bool.and_eq_true, decide_eq_true_eq, playerExists_iff]
  constructor
  · rintro ⟨⟨⟨h1, h2⟩, h3⟩, h4⟩
    rw [List.getElem?_eq_getElem h1] at h2 h4 ⊢
    simp only [Option.map_some, Option.getD_some, Player.chanPresent, Player.chan?, h3, dif_pos,
      Option.isSome_iff_exists] at h2 h4
    obtain ⟨C, hC⟩ := h4
    exact ⟨_, C, h3, rfl, h2, hC⟩
  · rintro ⟨P, C, h3, hP, h2, hC⟩
    have h1 : a.target.toNat < s.players.length := (List.getElem?_eq_some_iff.mp hP).1
    refine ⟨⟨⟨h1, ?_⟩, h3⟩, ?_⟩
    · rw [hP]
      exact h2
    · rw [hP]
      simp [Player.chanPresent, Player.chan?, h3, hC]

theorem gatedByChannel_of_open {a : Args} {f : State → State} {s : State} (h : channelGate s a = true) :
    gatedByChannel a f s = f s := by
  simp [gatedByChannel, h]

theorem gatedByChannel_of_shut {a : Args} {f : State → State} {s : State} (h : channelGate s a = false) :
    gatedByChannel a f s = s := by
  simp [gatedByChannel, h]

/-! ### Writes to the player file -/

/-- A write to a player that exists replaces it. -/
theorem modify_eq_set {ps : List Player} {k : Nat} {P : Player} (f : Player → Player) (h : ps[k]? = some P) :
    ps.modify k f = ps.set k (f P) := by
  apply List.ext_getElem?
  intro n
  simp only [List.getElem?_modify, List.getElem?_set]
  by_cases hn : k = n
  · subst hn
    have hk : k < ps.length := (List.getElem?_eq_some_iff.mp h).1
    simp only [if_true, hk, h]
    rfl
  · simp [hn]

/-- Another player is not touched. -/
theorem getElem?_modify_other {ps : List Player} {k n : Nat} (f : Player → Player) (h : n ≠ k) :
    (ps.modify k f)[n]? = ps[n]? := by
  simp [Ne.symm h]

/-- The player a hook leaves at an index. -/
theorem runHook_getElem? (h : List Player → Nat → Player) (s : State) {p : Nat} (hp : p < s.players.length) :
    (runHook h s).players[p]? = some (h s.players p) := by
  simp [hp]

end Sys2Proof.Machine
end

