-- ==== Sys2Proof/Laws/Exec.lean ====
section
/-! SUPPORT. The inversion lemmas of `exec` and of `step`: what shape every command has, and which transition a step
is. -/

namespace Sys2Proof.Machine

/-- Every command is `interpret` of an effect on the sequencer registers, and ends the drain exactly if it is
global. -/
theorem exec_command (i : Instr) (h : i.opClass ≠ .transaction) :
    ∃ effect, KeepsQueue effect
      ∧ exec i = interpret (decide (i.opClass = .global)) effect := by
  cases i with
  | nop a => exact ⟨id, keepsQueue_id, rfl⟩
  | chVolscale a => exact ⟨_, (keepsQueue_modifyChannel _ _ _).gatedByChannel a, rfl⟩
  | chVolume a => exact ⟨_, (keepsQueue_modifyChannel _ _ _).gatedByChannel a, rfl⟩
  | chPan a => exact ⟨_, (keepsQueue_modifyChannel _ _ _).gatedByChannel a, rfl⟩
  | chFreqscale a => exact ⟨_, (keepsQueue_modifyChannel _ _ _).gatedByChannel a, rfl⟩
  | chReverb a => exact ⟨_, (keepsQueue_modifyChannel _ _ _).gatedByChannel a, rfl⟩
  | chScriptio a => exact ⟨_, (keepsQueue_modifyChannel _ _ _).gatedByChannel a, rfl⟩
  | rsvdChan07 a => exact ⟨id, keepsQueue_id, rfl⟩
  | chStop a => exact ⟨_, (keepsQueue_modifyChannel _ _ _).gatedByChannel a, rfl⟩
  | plFadevolscale a => exact ⟨_, (keepsQueue_modifyPlayer _ _).gatedByPlayer a, rfl⟩
  | plVariation a => exact ⟨_, (keepsQueue_modifyPlayer _ _).gatedByPlayer a, rfl⟩
  | plTempo a => exact ⟨_, (keepsQueue_tempoEffect a).gatedByPlayer a, rfl⟩
  | plTranspose a => exact ⟨_, (keepsQueue_modifyPlayer _ _).gatedByPlayer a, rfl⟩
  | plPreload a => exact ⟨_, (keepsQueue_runHook _).gatedByPlayer a, rfl⟩
  | plLoadfadein a => exact ⟨_, (keepsQueue_loadFadeInEffect 0x82 a).gatedByPlayer a, rfl⟩
  | plStopfade a => exact ⟨_, (keepsQueue_stopFadeEffect a).gatedByPlayer a, rfl⟩
  | plLoadfadeinB a => exact ⟨_, (keepsQueue_loadFadeInEffect 0x88 a).gatedByPlayer a, rfl⟩
  | gSoundmode a => exact ⟨_, keepsQueue_soundModeEffect a, rfl⟩
  | gMuteall a => exact ⟨_, keepsQueue_modifyAllPlayers _, rfl⟩
  | gUnmuteall a => exact ⟨_, keepsQueue_modifyAllPlayers _, rfl⟩
  | gMisc a => exact ⟨_, keepsQueue_runHook _, rfl⟩
  | rsvdGlobal op a => exact ⟨id, keepsQueue_id, rfl⟩
  | rsvdMgmt op a => exact ⟨id, keepsQueue_id, rfl⟩
  | rsvdParam op a => exact ⟨id, keepsQueue_id, rfl⟩
  | rsvdChan op a => exact ⟨id, keepsQueue_id, rfl⟩
  | enq r => exact absurd rfl h
  | pub => exact absurd rfl h
  | poll => exact absurd rfl h
  | step => exact absurd rfl h

/-- All that a command can do to the state. -/
theorem exec_command_cases {i : Instr} {s t : State} (h : i.opClass ≠ .transaction) (ht : exec i s = .next t) :
    (s.active = false ∧ t = s)
    ∨ (s.active = true
      ∧ t.players.length = s.players.length
      ∧ t = { s with
          soundMode := t.soundMode
          players := t.players
          ring := clearOpcode s.ring s.rd
          rd := s.rd + 1
          rem := remAfterStep (decide (i.opClass = .global)) s.rem
          active := activeFor (remAfterStep (decide (i.opClass = .global)) s.rem) }) := by
  obtain ⟨effect, hk, he⟩ := exec_command i h
  rw [he] at ht
  rcases interpret_cases ht with ⟨ha, rfl⟩ | ⟨ha, rfl⟩
  · exact .inr ⟨ha, hk.length_eq s, hk.retire_eq _ s⟩
  · exact .inl ⟨ha, rfl⟩

theorem opClass_ite_ne {c : Prop} [Decidable c] {i j : Instr} {k : OpClass} (hi : i.opClass ≠ k)
    (hj : j.opClass ≠ k) : (if c then i else j).opClass ≠ k := by
  split
  · exact hi
  · exact hj

/-- A fetched instruction is a command. -/
theorem decodeRec_opClass_ne_transaction (r : Rec) : (decodeRec r).opClass ≠ .transaction := by
  unfold decodeRec decodeFields
  repeat' apply opClass_ite_ne
  all_goals simp [Instr.opClass]

/-- A step performs the next transition of the schedule. -/
theorem step_cons {s : State} {e : Event} {rest : List Event} (h : s.inputs = e :: rest) :
    step s = perform e { s with inputs := rest } := by
  simp [step, h]

theorem step_nil {s : State} (h : s.inputs = []) : step s = .next s := by
  simp [step, h]

/-- The writes of one EXT are done one after the other. -/
@[simp] theorem applyExt_nil (s : State) : applyExt [] s = s := rfl

@[simp] theorem applyExt_cons (w : ExtWrite) (ws : List ExtWrite) (s : State) :
    applyExt (w :: ws) s = applyExt ws (applyExtWrite s w) := rfl

/-- A write to a player replaces it, and does nothing where there is no such player. -/
theorem applyExtWrite_player (s : State) (p : Byte) (v : Player) :
    applyExtWrite s (.player p v) = { s with players := s.players.set p.toNat v } := by
  have : s.players.modify p.toNat (fun _ => v) = s.players.set p.toNat v := by
    apply List.ext_getElem?
    intro n
    simp only [List.getElem?_modify, List.getElem?_set]
    by_cases h : p.toNat = n
    · subst h
      by_cases hl : p.toNat < s.players.length <;> simp [hl]
    · simp [h]
  simp only [applyExtWrite, modifyPlayer, this]

/-- One write of EXT keeps everything but the players, and their number. -/
theorem applyExtWrite_frame (s : State) (w : ExtWrite) :
    applyExtWrite s w = { s with players := (applyExtWrite s w).players }
      ∧ (applyExtWrite s w).players.length = s.players.length := by
  cases w <;> exact ⟨rfl, by simp [applyExtWrite]⟩

/-- A run of one step more begins with that step. -/
theorem run_next {M : Host.Core} {n : Nat} {s t : M.State} (h : M.step s = .next t) :
    M.run (n + 1) s = M.run n t := by
  simp only [Host.Core.run, h]

end Sys2Proof.Machine
end

