-- ==== Sys2Proof/Laws/PerInstr.lean ====
section
/-! SUPPORT. The laws made per instruction: family `OpcodeClass`, the opcode a command encodes to lies in the range
30_encoding.md R81 gives its class. -/

namespace Sys2Proof.Laws.OpcodeClass

/-- R81's ranges, on the opcode an instruction encodes to. -/
def InClass (c : OpClass) (op : Byte) : Prop :=
  match c with
  | .global => 0xF0#8 ≤ op
  | .management => 0x80#8 ≤ op ∧ op ≤ 0xEF#8
  | .parameter => 0x40#8 ≤ op ∧ op ≤ 0x7F#8
  | .channel => op ≤ 0x3F#8
  | .transaction => False

/-- A well-formed instruction that has a record has an opcode of its class. -/
def Statement (i : Instr) : Prop :=
  i.wf = true → ∀ r, encodeRec i = some r → InClass i.opClass r.opcode

theorem nop (a : Args) : Statement (.nop a) := by
  intro _ r hr
  cases hr
  simp only [Instr.opClass, InClass, Args.withOpcode_opcode]
  decide

theorem chVolscale (a : Args) : Statement (.chVolscale a) := by
  intro _ r hr
  cases hr
  simp only [Instr.opClass, InClass, Args.withOpcode_opcode]
  decide

theorem chVolume (a : Args) : Statement (.chVolume a) := by
  intro _ r hr
  cases hr
  simp only [Instr.opClass, InClass, Args.withOpcode_opcode]
  decide

theorem chPan (a : Args) : Statement (.chPan a) := by
  intro _ r hr
  cases hr
  simp only [Instr.opClass, InClass, Args.withOpcode_opcode]
  decide

theorem chFreqscale (a : Args) : Statement (.chFreqscale a) := by
  intro _ r hr
  cases hr
  simp only [Instr.opClass, InClass, Args.withOpcode_opcode]
  decide

theorem chReverb (a : Args) : Statement (.chReverb a) := by
  intro _ r hr
  cases hr
  simp only [Instr.opClass, InClass, Args.withOpcode_opcode]
  decide

theorem chScriptio (a : Args) : Statement (.chScriptio a) := by
  intro _ r hr
  cases hr
  simp only [Instr.opClass, InClass, Args.withOpcode_opcode]
  decide

theorem rsvdChan07 (a : Args) : Statement (.rsvdChan07 a) := by
  intro _ r hr
  cases hr
  simp only [Instr.opClass, InClass, Args.withOpcode_opcode]
  decide

theorem chStop (a : Args) : Statement (.chStop a) := by
  intro _ r hr
  cases hr
  simp only [Instr.opClass, InClass, Args.withOpcode_opcode]
  decide

theorem plFadevolscale (a : Args) : Statement (.plFadevolscale a) := by
  intro _ r hr
  cases hr
  simp only [Instr.opClass, InClass, Args.withOpcode_opcode]
  decide

theorem plVariation (a : Args) : Statement (.plVariation a) := by
  intro _ r hr
  cases hr
  simp only [Instr.opClass, InClass, Args.withOpcode_opcode]
  decide

theorem plTempo (a : Args) : Statement (.plTempo a) := by
  intro _ r hr
  cases hr
  simp only [Instr.opClass, InClass, Args.withOpcode_opcode]
  decide

theorem plTranspose (a : Args) : Statement (.plTranspose a) := by
  intro _ r hr
  cases hr
  simp only [Instr.opClass, InClass, Args.withOpcode_opcode]
  decide

theorem plPreload (a : Args) : Statement (.plPreload a) := by
  intro _ r hr
  cases hr
  simp only [Instr.opClass, InClass, Args.withOpcode_opcode]
  decide

theorem plLoadfadein (a : Args) : Statement (.plLoadfadein a) := by
  intro _ r hr
  cases hr
  simp only [Instr.opClass, InClass, Args.withOpcode_opcode]
  decide

theorem plStopfade (a : Args) : Statement (.plStopfade a) := by
  intro _ r hr
  cases hr
  simp only [Instr.opClass, InClass, Args.withOpcode_opcode]
  decide

theorem plLoadfadeinB (a : Args) : Statement (.plLoadfadeinB a) := by
  intro _ r hr
  cases hr
  simp only [Instr.opClass, InClass, Args.withOpcode_opcode]
  decide

theorem gSoundmode (a : Args) : Statement (.gSoundmode a) := by
  intro _ r hr
  cases hr
  simp only [Instr.opClass, InClass, Args.withOpcode_opcode]
  decide

theorem gMuteall (a : Args) : Statement (.gMuteall a) := by
  intro _ r hr
  cases hr
  simp only [Instr.opClass, InClass, Args.withOpcode_opcode]
  decide

theorem gUnmuteall (a : Args) : Statement (.gUnmuteall a) := by
  intro _ r hr
  cases hr
  simp only [Instr.opClass, InClass, Args.withOpcode_opcode]
  decide

theorem gMisc (a : Args) : Statement (.gMisc a) := by
  intro _ r hr
  cases hr
  simp only [Instr.opClass, InClass, Args.withOpcode_opcode]
  decide

theorem rsvdGlobal (op : Byte) (a : Args) : Statement (.rsvdGlobal op a) := by
  intro hw r hr
  cases hr
  simp only [Instr.wf, isReservedGlobal, decide_eq_true_eq] at hw
  simp only [Instr.opClass, InClass, Args.withOpcode_opcode]
  bv_omega

theorem rsvdMgmt (op : Byte) (a : Args) : Statement (.rsvdMgmt op a) := by
  intro hw r hr
  cases hr
  simp only [Instr.wf, isReservedManagement, Bool.or_eq_true, decide_eq_true_eq] at hw
  simp only [Instr.opClass, InClass, Args.withOpcode_opcode]
  bv_omega

theorem rsvdParam (op : Byte) (a : Args) : Statement (.rsvdParam op a) := by
  intro hw r hr
  cases hr
  simp only [Instr.wf, isReservedParameter, Bool.or_eq_true, decide_eq_true_eq] at hw
  simp only [Instr.opClass, InClass, Args.withOpcode_opcode]
  bv_omega

theorem rsvdChan (op : Byte) (a : Args) : Statement (.rsvdChan op a) := by
  intro hw r hr
  cases hr
  simp only [Instr.wf, isReservedChannel, decide_eq_true_eq] at hw
  simp only [Instr.opClass, InClass, Args.withOpcode_opcode]
  bv_omega

theorem enq (r : Rec) : Statement (.enq r) := by
  intro _ r' hr
  simp [encodeRec] at hr

theorem pub : Statement .pub := by
  intro _ r hr
  simp [encodeRec] at hr

theorem poll : Statement .poll := by
  intro _ r hr
  simp [encodeRec] at hr

theorem step : Statement .step := by
  intro _ r hr
  simp [encodeRec] at hr

end Sys2Proof.Laws.OpcodeClass
end

