-- ==== Sys2Proof/Tests/Slice0.lean ====
section
/-! SUPPORT. The author's tests: ill-formed terms, words written out from the spec's encodings, the vectors of
spec/95_test_vectors.md one step at a time, and for every statement with hypotheses a state and operands that meet
them. A test on fixed values checks the author's work; it is no statement for the provers. -/

namespace Sys2Proof.Tests

open Sys2Proof Sys2Proof.Machine

/-! ## Well-formedness: each of the four checks refuses a term that is no instruction (R85) -/

def zeroArgs : Args := ⟨0, 0, 0, 0⟩

theorem test_wf_global_refuses_a_defined_opcode : (Instr.rsvdGlobal 0xF3 zeroArgs).wf = false := by decide
theorem test_wf_global_bounds :
    (Instr.rsvdGlobal 0xF4 zeroArgs).wf = true ∧ (Instr.rsvdGlobal 0xFF zeroArgs).wf = true
      ∧ (Instr.rsvdGlobal 0xEF zeroArgs).wf = false := by decide
theorem test_wf_management_refuses_defined_opcodes :
    (Instr.rsvdMgmt 0x83 zeroArgs).wf = false ∧ (Instr.rsvdMgmt 0x88 zeroArgs).wf = false
      ∧ (Instr.rsvdMgmt 0xF0 zeroArgs).wf = false ∧ (Instr.rsvdMgmt 0x7F zeroArgs).wf = false := by decide
theorem test_wf_management_bounds :
    (Instr.rsvdMgmt 0x80 zeroArgs).wf = true ∧ (Instr.rsvdMgmt 0x84 zeroArgs).wf = true
      ∧ (Instr.rsvdMgmt 0x87 zeroArgs).wf = true ∧ (Instr.rsvdMgmt 0x89 zeroArgs).wf = true
      ∧ (Instr.rsvdMgmt 0xEF zeroArgs).wf = true := by decide
theorem test_wf_parameter_refuses_defined_opcodes :
    (Instr.rsvdParam 0x41 zeroArgs).wf = false ∧ (Instr.rsvdParam 0x46 zeroArgs).wf = false
      ∧ (Instr.rsvdParam 0x48 zeroArgs).wf = false ∧ (Instr.rsvdParam 0x3F zeroArgs).wf = false := by decide
theorem test_wf_parameter_bounds :
    (Instr.rsvdParam 0x40 zeroArgs).wf = true ∧ (Instr.rsvdParam 0x42 zeroArgs).wf = true
      ∧ (Instr.rsvdParam 0x45 zeroArgs).wf = true ∧ (Instr.rsvdParam 0x49 zeroArgs).wf = true
      ∧ (Instr.rsvdParam 0x7F zeroArgs).wf = true := by decide
theorem test_wf_channel_refuses_rows_of_their_own :
    (Instr.rsvdChan 0x07 zeroArgs).wf = false ∧ (Instr.rsvdChan 0x00 zeroArgs).wf = false
      ∧ (Instr.rsvdChan 0x08 zeroArgs).wf = false ∧ (Instr.rsvdChan 0x40 zeroArgs).wf = false := by decide
theorem test_wf_channel_bounds :
    (Instr.rsvdChan 0x09 zeroArgs).wf = true ∧ (Instr.rsvdChan 0x3F zeroArgs).wf = true := by decide

/-! ## Decoding: a word for every command, from R62, R80, R84, R85 (records of spec/95 and of the rules' examples) -/

theorem test_decode_nop : decodeTableWord 64 0x0000000000000000 = some (.nop ⟨0, 0, 0, 0⟩) := by decide
theorem test_decode_chVolscale : decodeTableWord 64 0x010002003F800000 = some (.chVolscale ⟨0, 2, 0, 0x3F800000⟩) := by
  decide
theorem test_decode_chVolume : decodeTableWord 64 0x020103003F000000 = some (.chVolume ⟨1, 3, 0, 0x3F000000⟩) := by
  decide
theorem test_decode_chPan : decodeTableWord 64 0x0300050040000000 = some (.chPan ⟨0, 5, 0, 0x40000000⟩) := by decide
theorem test_decode_chFreqscale : decodeTableWord 64 0x0402000040000000 = some (.chFreqscale ⟨2, 0, 0, 0x40000000⟩) := by
  decide
theorem test_decode_chReverb : decodeTableWord 64 0x050001007F000000 = some (.chReverb ⟨0, 1, 0, 0x7F000000⟩) := by
  decide
theorem test_decode_chScriptio : decodeTableWord 64 0x060101077F000000 = some (.chScriptio ⟨1, 1, 7, 0x7F000000⟩) := by
  decide
theorem test_decode_rsvdChan07 : decodeTableWord 64 0x0700000001000000 = some (.rsvdChan07 ⟨0, 0, 0, 0x01000000⟩) := by
  decide
theorem test_decode_chStop : decodeTableWord 64 0x08030F0001000000 = some (.chStop ⟨3, 15, 0, 0x01000000⟩) := by decide
theorem test_decode_plFadevolscale :
    decodeTableWord 64 0x410100007FC00001 = some (.plFadevolscale ⟨1, 0, 0, 0x7FC00001⟩) := by decide
theorem test_decode_plVariation : decodeTableWord 64 0x460300FF7F123456 = some (.plVariation ⟨3, 0, 255, 0x7F123456⟩) := by
  decide
theorem test_decode_plTempo : decodeTableWord 64 0x4702000000000078 = some (.plTempo ⟨2, 0, 0, 120⟩) := by decide
theorem test_decode_plTranspose : decodeTableWord 64 0x48030000FE000000 = some (.plTranspose ⟨3, 0, 0, 0xFE000000⟩) := by
  decide
theorem test_decode_plPreload : decodeTableWord 64 0x8101070000000000 = some (.plPreload ⟨1, 7, 0, 0⟩) := by decide
theorem test_decode_plLoadfadein : decodeTableWord 64 0x820107000000001E = some (.plLoadfadein ⟨1, 7, 0, 30⟩) := by decide
theorem test_decode_plStopfade : decodeTableWord 64 0x830200000000000A = some (.plStopfade ⟨2, 0, 0, 10⟩) := by decide
theorem test_decode_plLoadfadeinB : decodeTableWord 64 0x8800030000000000 = some (.plLoadfadeinB ⟨0, 3, 0, 0⟩) := by decide
theorem test_decode_gSoundmode :
    decodeTableWord 64 0xF0FF1234DEADBEEF = some (.gSoundmode ⟨0xFF, 0x12, 0x34, 0xDEADBEEF⟩) := by decide
theorem test_decode_gMuteall : decodeTableWord 64 0xF1C8000000000000 = some (.gMuteall ⟨200, 0, 0, 0⟩) := by decide
theorem test_decode_gUnmuteall : decodeTableWord 64 0xF200000000000000 = some (.gUnmuteall ⟨0, 0, 0, 0⟩) := by decide
theorem test_decode_gMisc : decodeTableWord 64 0xF302050000000000 = some (.gMisc ⟨2, 5, 0, 0⟩) := by decide
theorem test_decode_rsvdGlobal :
    decodeTableWord 64 0xF400000000000000 = some (.rsvdGlobal 0xF4 ⟨0, 0, 0, 0⟩)
      ∧ decodeTableWord 64 0xFF00000000000000 = some (.rsvdGlobal 0xFF ⟨0, 0, 0, 0⟩) := by decide
theorem test_decode_rsvdMgmt :
    decodeTableWord 64 0x9000000000000000 = some (.rsvdMgmt 0x90 ⟨0, 0, 0, 0⟩)
      ∧ decodeTableWord 64 0xEF00000000000000 = some (.rsvdMgmt 0xEF ⟨0, 0, 0, 0⟩) := by decide
theorem test_decode_rsvdParam :
    decodeTableWord 64 0x4200000012345678 = some (.rsvdParam 0x42 ⟨0, 0, 0, 0x12345678⟩)
      ∧ decodeTableWord 64 0x7F00000000000000 = some (.rsvdParam 0x7F ⟨0, 0, 0, 0⟩) := by decide
theorem test_decode_rsvdChan :
    decodeTableWord 64 0x0900000000000001 = some (.rsvdChan 0x09 ⟨0, 0, 0, 1⟩)
      ∧ decodeTableWord 64 0x3F00000000000000 = some (.rsvdChan 0x3F ⟨0, 0, 0, 0⟩) := by decide

/-- A list shorter than a record is no command; what follows a record is left over. -/
theorem test_decode_short_and_rest :
    decode [0x48, 0, 0, 0, 5, 0, 0] = .error (.truncatedRecord 7)
      ∧ decode [0x48, 0, 0, 0, 5, 0, 0, 0, 0xAA] = .ok (.plTranspose ⟨0, 0, 0, 0x05000000⟩, [0xAA]) := by decide

/-- The lines of a batch are transactions (R88): P1's first line, and the three ports without operands. -/
theorem test_assembler_lines :
    (AsmLine.enq (.chVolume 1 3 0x3F000000)).transaction
        = .enq { target := 1, arg2 := 3, arg3 := 0, payload := 0x3F000000, opcode := 0x02 }
      ∧ AsmLine.pub.transaction = .pub ∧ AsmLine.poll.transaction = .poll ∧ AsmLine.step.transaction = .step := by
  decide

/-- P3's third line: the byte operand lies in the payload's top byte. -/
theorem test_assembler_byte_lane : (Asm.plVariation 1 5 0x80).record.toWord = 0x4601000580000000#64 := by decide

/-! ## The states of spec/95: Z, and L with its six channels -/

def stateZ : State := State.reset

def loadedPlayer (enabled : Bool) (present : List Nat) : Player :=
  { Player.reset with
    enabled := enabled
    chans := Vector.ofFn fun c : Fin 16 => if present.contains c.val then some Channel.zero else none }

def stateL : State :=
  { stateZ with
    players := [loadedPlayer true [0, 1, 2, 3], loadedPlayer true [3], loadedPlayer false [0], Player.reset] }

/-- L with one player replaced. -/
def withPlayer (p : Nat) (f : Player → Player) (s : State) : State := { s with players := s.players.modify p f }

/-- The state after an outcome. -/
def stateAfter (r : Result) : State :=
  match r with
  | .next t => t
  | .fault _ => stateZ
  | .refused _ => stateZ

/-- The state after the STEP that runs this record. -/
def afterRecord (s : State) (w : Nat) : State := stateAfter (step (s.withFetchWord 64 w))

def player (s : State) (p : Nat) : Player := s.players[p]?.getD Player.reset

def channel (s : State) (p : Nat) (c : Byte) : Channel := ((player s p).chan? c).getD Channel.zero

/-- A range of three slots left, so that an early exit shows. -/
def draining (s : State) : State := { s with active := true, rem := 3 }

/-! ## Queue transactions (Q1 to Q20) -/

def volumeRecord : Rec := { opcode := 0x02, target := 1, arg2 := 3, arg3 := 0, payload := 0x3F000000 }

/-- Q1. -/
theorem test_enq : ((stateAfter (exec (.enq volumeRecord) stateZ)).ring.readBytes 0 8)
    = [0x02, 1, 3, 0, 0x3F, 0, 0, 0]
      ∧ (stateAfter (exec (.enq volumeRecord) stateZ)).wr = 1
      ∧ (stateAfter (exec (.enq volumeRecord) stateZ)).lap = false := by decide

/-- Q2, Q3: the cursor wraps; the 256th pending record sets `lap`. -/
theorem test_enq_wraps_and_laps :
    (stateAfter (exec (.enq volumeRecord) { stateZ with wr := 0xFF, pub := 0x10 })).wr = 0
      ∧ (stateAfter (exec (.enq volumeRecord) { stateZ with wr := 0xFF, pub := 0x10 })).ring.read 2040 = 0x02
      ∧ (stateAfter (exec (.enq volumeRecord) { stateZ with wr := 0x0F, pub := 0x10 })).lap = true := by decide

def pubState (wr pub : Byte) (lap : Bool) (hwm : Byte) (mbox : List Msg) : State :=
  { stateZ with wr := wr, pub := pub, lap := lap, hwm := hwm, mbox := mbox }

/-- Q7 and Q8: the message of a range that wraps, and of a whole ring; the words of R87. -/
theorem test_pub :
    mboxWords (stateAfter (exec .pub (pubState 0x02 0xFE false 3 []))) = [0x0000FE02]
      ∧ (stateAfter (exec .pub (pubState 0x02 0xFE false 3 []))).hwm = 4
      ∧ mboxWords (stateAfter (exec .pub (pubState 0x10 0x10 true 7 []))) = [0x00011010]
      ∧ (stateAfter (exec .pub (pubState 0x10 0x10 true 7 []))).hwm = 7 := by decide

def fourMessages : List Msg := [⟨false, 2, 3⟩, ⟨false, 3, 4⟩, ⟨false, 4, 5⟩, ⟨false, 5, 6⟩]

/-- Q9: the fifth message is dropped, the cursor moves all the same. -/
theorem test_pub_drops :
    (stateAfter (exec .pub (pubState 8 6 false 1 fourMessages))).mbox = fourMessages
      ∧ (stateAfter (exec .pub (pubState 8 6 false 1 fourMessages))).pub = 8
      ∧ (stateAfter (exec .pub (pubState 8 6 false 1 fourMessages))).hwm = 2 := by decide

/-- Q12, Q14: a range that wraps, and a whole ring. -/
theorem test_poll :
    (stateAfter (exec .poll { stateZ with mbox := [⟨false, 0xFE, 2⟩] })).rd = 0xFE
      ∧ (stateAfter (exec .poll { stateZ with mbox := [⟨false, 0xFE, 2⟩] })).rem = 4
      ∧ (stateAfter (exec .poll { stateZ with mbox := [⟨false, 0xFE, 2⟩] })).active = true
      ∧ (stateAfter (exec .poll { stateZ with mbox := [⟨true, 0x10, 0x10⟩] })).rem = 256 := by decide

/-- Q13, Q15: an empty range is taken without a drain; a drain in progress takes nothing. -/
theorem test_poll_empty_range_and_busy :
    (stateAfter (exec .poll { stateZ with mbox := [⟨false, 9, 9⟩, ⟨false, 9, 11⟩] })).active = false
      ∧ (stateAfter (exec .poll { stateZ with mbox := [⟨false, 9, 9⟩, ⟨false, 9, 11⟩] })).mbox = [⟨false, 9, 11⟩]
      ∧ (stateAfter (exec .poll { draining stateZ with rd := 3, mbox := [⟨false, 5, 6⟩] })).rd = 3
      ∧ (stateAfter (exec .poll { draining stateZ with rd := 3, mbox := [⟨false, 5, 6⟩] })).mbox = [⟨false, 5, 6⟩] := by
  decide

/-- Q17 by the STEP transaction: the effect, the zeroed opcode, the end of the drain. -/
theorem test_step :
    let s := { stateL with rd := 7, rem := 1, active := true, ring := [(56, 0x48), (57, 2), (60, 5)] }
    (player (stateAfter (exec .step s)) 2).transposition = 5
      ∧ (stateAfter (exec .step s)).ring = [(57, 2), (60, 5)]
      ∧ (stateAfter (exec .step s)).rd = 8 ∧ (stateAfter (exec .step s)).active = false := by decide

/-- Q16, Q18: the read cursor wraps; without a drain nothing happens. -/
theorem test_step_wraps_and_idle :
    (stateAfter (exec .step { stateZ with rd := 0xFF, rem := 2, active := true })).rd = 0
      ∧ (stateAfter (exec .step { stateZ with rd := 0xFF, rem := 2, active := true })).rem = 1
      ∧ (stateAfter (exec .step { stateZ with rd := 0xFF })).rd = 0xFF := by decide

/-! ## Global commands (G1 to G8) -/

/-- G2. -/
theorem test_gSoundmode :
    (afterRecord (draining stateZ) 0xF0FF1234DEADBEEF).soundMode = 0xDEADBEEF
      ∧ (afterRecord (draining stateZ) 0xF0FF1234DEADBEEF).rem = 0
      ∧ (afterRecord (draining stateZ) 0xF0FF1234DEADBEEF).active = false
      ∧ (afterRecord (draining stateZ) 0xF0FF1234DEADBEEF).ring.readBytes 0 8
        = [0, 0xFF, 0x12, 0x34, 0xDE, 0xAD, 0xBE, 0xEF] := by decide

/-- G5, with the dirty marks of G3. -/
theorem test_gMuteall :
    (afterRecord (draining stateZ) 0xF1C8000000000000).players.map Player.muted = [true, true, true, true]
      ∧ (afterRecord (draining stateZ) 0xF1C8000000000000).players.map Player.volDirty
        = [false, false, false, false] := by decide

/-- G4, from all muted. -/
theorem test_gUnmuteall :
    (afterRecord (draining (stateAfter (exec (.gMuteall zeroArgs) (draining stateZ)))) 0xF200000000000000).players.map
      Player.muted = [false, false, false, false] := by decide

/-- G6: what the hook leaves is not the block's; the sound mode stays and the drain ends. -/
theorem test_gMisc :
    (afterRecord (draining stateL) 0xF302050000000000).soundMode = 0
      ∧ (afterRecord (draining stateL) 0xF302050000000000).active = false
      ∧ (afterRecord (draining stateL) 0xF302050000000000).players.length = 4 := by decide

/-- G7. -/
theorem test_rsvdGlobal :
    (afterRecord (draining stateL) 0xF700000000000000).active = false
      ∧ (afterRecord (draining stateL) 0xF700000000000000).rem = 0
      ∧ (afterRecord (draining stateL) 0xF700000000000000).players.map Player.enabled = [true, true, false, false] := by
  decide

/-! ## Player-management commands (M1 to M14) -/

/-- M1, M2: the drain goes on; without a player no hook is called. -/
theorem test_plPreload :
    (afterRecord (draining stateL) 0x8101070000000000).rem = 2
      ∧ (afterRecord (draining stateL) 0x8104070000000000).players.map Player.enabled
        = [true, true, false, false] := by decide

/-- M3. -/
theorem test_plLoadfadein :
    (player (afterRecord stateL 0x820107000000001E) 1).state = .fadingIn
      ∧ (player (afterRecord stateL 0x820107000000001E) 1).fadeRemaining = 30
      ∧ (player (afterRecord stateL 0x820107000000001E) 1).fadeVolume = 0 := by decide

/-- M5: a negative duration is stored as it is. -/
theorem test_plLoadfadein_negative :
    (player (afterRecord stateL 0x82000000FFFFFFFF) 0).fadeRemaining = 0xFFFFFFFF := by decide

/-- M4: the loader sees opcode 0x88; no fade-in for duration 0. -/
theorem test_plLoadfadeinB :
    (afterRecord stateL 0x8800030000000000).players[0]?
      = some (Config.extLoad { opcode := 0x88, target := 0, arg2 := 3, arg3 := 0, payload := 0 } stateL.players 0) := by
  rfl

/-- M6. -/
theorem test_plStopfade_stop :
    (player (afterRecord (withPlayer 1 (fun P => { P with state := .playing }) stateL) 0x8301000000000000) 1).state = .stopped
      ∧ (player (afterRecord stateL 0x8301000000000000) 1).enabled = false := by decide

/-- M7, M9, M12: -10.0; the clamped duration; -(1/3) to nearest even. -/
theorem test_plStopfade_fade :
    let at100 := withPlayer 1 (fun P => { P with fadeVolume := 0x42C80000 }) stateL
    let at1 := withPlayer 1 (fun P => { P with fadeVolume := 0x3F800000 }) stateL
    (player (afterRecord at100 0x830100000000000A) 1).fadeVelocity = 0xC1200000
      ∧ (player (afterRecord at100 0x8301000080000000) 1).fadeRemaining = 1
      ∧ (player (afterRecord at100 0x8301000080000000) 1).fadeVelocity = 0xC2C80000
      ∧ (player (afterRecord at1 0x8301000000000003) 1).fadeVelocity = 0xBEAAAAAB := by decide +kernel

/-- M14. -/
theorem test_rsvdMgmt :
    (afterRecord (draining stateL) 0x9000000000000000).rem = 2
      ∧ (afterRecord (draining stateL) 0x9000000000000000).ring = [] := by decide

/-! ## Player-parameter commands (A1 to A15) -/

/-- A2, A4: a disabled player; a NaN pattern copied bit for bit. -/
theorem test_plFadevolscale :
    (player (afterRecord stateZ 0x410300003F800000) 3).fadeVolumeScale = 0x3F800000
      ∧ (player (afterRecord stateZ 0x410300003F800000) 3).volDirty = true
      ∧ (player (afterRecord stateL 0x410100007FC00001) 1).fadeVolumeScale = 0x7FC00001 := by decide

/-- A5, A6. -/
theorem test_plVariation :
    (player (afterRecord stateL 0x46000002FF000000) 0).variation[2] = 0xFF
      ∧ (player (afterRecord stateL 0x460300FF7F123456) 3).variation[255] = 0x7F := by decide +kernel

/-- A7, A8, A9. -/
theorem test_plTempo :
    (player (afterRecord stateL 0x4702000000000078) 2).tempo = 5760
      ∧ (player (afterRecord stateL 0x4702000006000000) 2).tempo = 0x20000000
      ∧ (player (afterRecord stateL 0x47020000FFFFFFFF) 2).tempo = 0xFFFFFFD0 := by decide

/-- A12, A13: the byte is the payload's top one. -/
theorem test_plTranspose :
    (player (afterRecord (withPlayer 0 (fun P => { P with transposition := 7 }) stateL) 0x4800000000000005) 0).transposition = 0
      ∧ (player (afterRecord stateL 0x4800000080FFFFFF) 0).transposition = 0x80 := by decide

/-- A14. -/
theorem test_rsvdParam :
    (afterRecord (draining stateL) 0x4200000012345678).rem = 2
      ∧ (afterRecord (draining stateL) 0x4200000012345678).ring = [(4, 0x12), (5, 0x34), (6, 0x56), (7, 0x78)] := by
  decide

/-! ## Channel commands (C1 to C18) -/

/-- C1. -/
theorem test_chVolscale :
    (channel (afterRecord stateL 0x010002003F800000) 0 2).volumeScale = 0x3F800000
      ∧ (channel (afterRecord stateL 0x010002003F800000) 0 2).volume = 0
      ∧ (channel (afterRecord stateL 0x010002003F800000) 0 2).changes = ⟨true, false, false⟩ := by decide

/-- C2, C12: the gate open, and a disabled player. -/
theorem test_chVolume :
    (channel (afterRecord stateL 0x020103003F000000) 1 3).volume = 0x3F000000
      ∧ (channel (afterRecord stateL 0x020103003F000000) 1 3).changes = ⟨true, false, false⟩
      ∧ (channel (afterRecord stateL 0x020200003F000000) 2 0).volume = 0 := by decide

/-- C14, C16, C15: an absent channel, an index of 255, no such player. -/
theorem test_channel_gate_ignores :
    (player (afterRecord stateL 0x020004003F000000) 0).chans = (player stateL 0).chans
      ∧ (player (afterRecord stateL 0x0200FF003F000000) 0).chans = (player stateL 0).chans
      ∧ (afterRecord stateL 0x020400003F000000).players.map Player.chans = stateL.players.map Player.chans := by
  decide +kernel

/-- C4. -/
theorem test_chPan :
    (channel (afterRecord stateL 0x03000100C0FFFFFF) 0 1).pan = 0xC0
      ∧ (channel (afterRecord stateL 0x03000100C0FFFFFF) 0 1).changes = ⟨false, true, false⟩ := by decide

/-- C5. -/
theorem test_chFreqscale :
    (channel (afterRecord stateL 0x0400000040000000) 0 0).freqScale = 0x40000000
      ∧ (channel (afterRecord stateL 0x0400000040000000) 0 0).changes = ⟨false, false, true⟩ := by decide

/-- C6. -/
theorem test_chReverb :
    (channel (afterRecord stateL 0x0500000020000000) 0 0).reverbVol = 0x20
      ∧ (channel (afterRecord stateL 0x0500000020000000) 0 0).changes = ⟨false, false, false⟩ := by decide

/-- C7, C8. -/
theorem test_chScriptio :
    (channel (afterRecord stateL 0x060003077F000000) 0 3).scriptIO = #v[0, 0, 0, 0, 0, 0, 0, 0x7F]
      ∧ (channel (afterRecord stateL 0x060003087F000000) 0 3).scriptIO = #v[0, 0, 0, 0, 0, 0, 0, 0] := by
  decide +kernel

/-- C10, C17: opcodes 7, 9 and 0 change no register; the slot is consumed. -/
theorem test_reserved_channel_opcodes :
    channel (afterRecord stateL 0x0700000001000000) 0 0 = Channel.zero
      ∧ (afterRecord (draining stateL) 0x0700000001000000).ring = [(4, 1)]
      ∧ (afterRecord (draining stateL) 0x0900000000000001).rem = 2
      ∧ (afterRecord (draining stateL) 0x0000000000000000).rd = 1 := by decide +kernel

/-- C11. -/
theorem test_chStop :
    (channel (afterRecord stateL 0x0800030001000000) 0 3).stopFlag = 1
      ∧ (channel (afterRecord stateL 0x0800030001000000) 0 3).changes = ⟨false, false, false⟩ := by decide

/-! ## The other transitions -/

/-- R38: one EXT writes a player and one of its channels. -/
theorem test_ext :
    let t := applyExt [.player 1 { Player.reset with enabled := true }, .channel 1 15 (some Channel.zero)] stateZ
    (player t 1).enabled = true ∧ (player t 1).chanPresent 15 = true ∧ (player t 1).chanPresent 14 = false
      ∧ (player t 0).enabled = false := by decide

/-- R230: RESET abandons a drain and leaves the reset values. -/
theorem test_reset :
    (stateAfter (step { draining stateL with wr := 9, mbox := fourMessages, inputs := [.reset] })).mbox = []
      ∧ (stateAfter (step { draining stateL with wr := 9, mbox := fourMessages, inputs := [.reset] })).wr = 0
      ∧ (stateAfter (step { draining stateL with wr := 9, mbox := fourMessages, inputs := [.reset] })).active = false
      ∧ (stateAfter (step { draining stateL with inputs := [.reset] })).players.map Player.enabled
        = [false, false, false, false] := by decide

/-- R31, R33: the codes of the playback states, and the packed dirty bits. -/
theorem test_codes :
    PlayState.stopped.code = 0 ∧ PlayState.fadingIn.code = 1 ∧ PlayState.fadingOut.code = 2 ∧ PlayState.playing.code = 3
      ∧ (Changes.mk true false true).pack = 0x05 ∧ (Changes.mk false true false).pack = 0x02 := by decide

/-- R145 and M11: IEEE division beyond the named properties; overflow, underflow and a tie. -/
theorem test_numerics :
    f32Neg (f32Div 0xC2C80000 (f32OfI32 10)) = 0x41200000
      ∧ f32OfI32 0x80000000 = 0xCF000000
      ∧ f32OfI32 16777217 = 0x4B800000
      ∧ f32Div 0x7F7FFFFF 0x00000001 = 0x7F800000
      ∧ f32Div 0x00000001 0x40000000 = 0x00000000
      ∧ f32Div 0x00000003 0x40000000 = 0x00000002 := by decide +kernel

/-! ## What meets the hypotheses of the statements

For each statement of Certificates/Slice0/Obligations.lean that has hypotheses, a state and operands that meet all of
them together: one for each clause, at the ends of the ranges. -/

def pan (p c : Byte) : Args := ⟨p, c, 0, 0x40000000⟩

def waiting (es : List Event) (s : State) : State := { s with inputs := es }

theorem test_meets_EncodedCommandsDecodeBack :
    (Instr.chVolume (pan 255 255)).wf = true ∧ (Instr.chVolume (pan 255 255)).opClass ≠ .transaction
      ∧ (Instr.rsvdGlobal 0xFF zeroArgs).wf = true ∧ (Instr.rsvdGlobal 0xFF zeroArgs).opClass ≠ .transaction
      ∧ (Instr.rsvdMgmt 0x80 zeroArgs).wf = true ∧ (Instr.rsvdMgmt 0x80 zeroArgs).opClass ≠ .transaction
      ∧ (Instr.rsvdParam 0x7F zeroArgs).wf = true ∧ (Instr.rsvdParam 0x7F zeroArgs).opClass ≠ .transaction
      ∧ (Instr.rsvdChan 0x3F zeroArgs).wf = true ∧ (Instr.rsvdChan 0x3F zeroArgs).opClass ≠ .transaction := by decide

theorem test_meets_EveryRecordDecodesAndEncodesBack :
    ([0xFF, 0xFF, 0xFF, 0xFF, 0xFF, 0xFF, 0xFF, 0xFF] : List Byte).length = 8
      ∧ ([0, 0, 0, 0, 0, 0, 0, 0] : List Byte).length = 8 := by decide

theorem test_meets_PublishMessageWordPacksAndUnpacks :
    stateZ.mbox.length < 4 ∧ (pubState 8 6 false 1 (fourMessages.drop 1)).mbox.length < 4 := by decide

theorem test_meets_StepRunsTheDecodedInstruction :
    (stateL.withFetchWord 64 0x0300010040000000).inputs = .step :: []
      ∧ (stateL.withFetchWord 64 0x0300010040000000).active = true
      ∧ decode ((stateL.withFetchWord 64 0x0300010040000000).ring.readBytes
          (8 * (stateL.withFetchWord 64 0x0300010040000000).rd.toNat) 8) = .ok (.chPan (pan 0 1), []) := by decide

theorem test_meets_OtherEventsRunTheirTransitions :
    (waiting [.enq volumeRecord] stateZ).inputs = .enq volumeRecord :: []
      ∧ (waiting [.pub] stateZ).inputs = .pub :: [] ∧ (waiting [.poll] stateZ).inputs = .poll :: []
      ∧ (waiting [.step] stateZ).inputs = .step :: [] ∧ (waiting [.step] stateZ).active = false
      ∧ (waiting [.ext []] stateZ).inputs = .ext [] :: [] ∧ (waiting [.reset] stateZ).inputs = .reset :: []
      ∧ stateZ.inputs = [] := by decide

theorem test_meets_PlacedRecordRunsNext :
    decodeTableWord 64 0xFF00000000000001 = some (.rsvdGlobal 0xFF ⟨0, 0, 0, 1⟩)
      ∧ decodeTableWord 8 0x7F = some (.nop ⟨0, 0, 0, 0x7F⟩) := by decide

theorem test_meets_PubSendsOrDropsAndAlwaysMovesPub :
    (pubState 8 6 false 1 (fourMessages.drop 1)).mbox.length < 4
      ∧ 4 ≤ (pubState 8 6 false 1 fourMessages).mbox.length := by decide

theorem test_meets_PollLoadsTheOldestRange :
    (draining stateZ).active = true ∧ stateZ.mbox = [] ∧ stateZ.active = false
      ∧ ({ stateZ with mbox := [⟨true, 9, 9⟩] } : State).mbox = ⟨true, 9, 9⟩ :: []
      ∧ ({ stateZ with mbox := [⟨false, 9, 9⟩] } : State).mbox = ⟨false, 9, 9⟩ :: [] := by decide

theorem test_meets_StepAppliesZeroesAndAdvances :
    stateZ.active = false ∧ (draining stateZ).active = true
      ∧ ({ draining stateZ with rd := 0xFF, rem := 256 } : State).active = true := by decide

theorem test_meets_GlobalCommandsEndTheDrain :
    (Instr.gMuteall zeroArgs).opClass = .global ∧ (Instr.rsvdGlobal 0xFF zeroArgs).opClass = .global
      ∧ ({ draining stateZ with rem := 256 } : State).active = true := by decide

theorem test_meets_OtherCommandsLetTheDrainGoOn :
    (Instr.nop zeroArgs).opClass ≠ .global ∧ (Instr.nop zeroArgs).opClass ≠ .transaction
      ∧ (Instr.rsvdMgmt 0xEF zeroArgs).opClass ≠ .global ∧ (Instr.rsvdMgmt 0xEF zeroArgs).opClass ≠ .transaction
      ∧ ({ draining stateZ with rem := 1 } : State).active = true := by decide

theorem test_meets_CommandsNeedAnActiveDrain :
    (Instr.gMuteall zeroArgs).opClass ≠ .transaction ∧ stateL.active = false := by decide

/-- An ENQ into the last slot with the byte below it, a STEP with the byte above the opcode; PUB and POLL. -/
theorem test_meets_RingBytesOutsideTheStoredOnesStay :
    (∃ t, exec (.enq volumeRecord) { stateZ with wr := 0xFF } = .next t) ∧ 2039 < 8 * (0xFF : Byte).toNat
      ∧ (∃ t, exec (.enq volumeRecord) stateZ = .next t) ∧ 8 * (0 : Byte).toNat + 8 ≤ 8
      ∧ (∃ t, exec .step (draining stateZ) = .next t) ∧ 1 ≠ 8 * (draining stateZ).rd.toNat
      ∧ (∃ t, exec .pub stateZ = .next t) ∧ (∃ t, exec .poll stateZ = .next t) :=
  ⟨⟨_, rfl⟩, by decide, ⟨_, rfl⟩, by decide, ⟨_, rfl⟩, by decide, ⟨_, rfl⟩, ⟨_, rfl⟩⟩

theorem test_meets_PollThenStepsIsTheWholeDrain :
    stateL.active = false ∧ ({ stateL with mbox := [⟨true, 0x10, 0x10⟩] } : State).mbox = ⟨true, 0x10, 0x10⟩ :: []
      ∧ ({ stateL with mbox := [⟨false, 0xFE, 2⟩] } : State).mbox = ⟨false, 0xFE, 2⟩ :: [] := by decide

/-- Up to 256 records, the last of them a global one (P6's length). -/
theorem test_meets_BatchIsAppliedExactlyOnceInOrder :
    (List.replicate 255 volumeRecord ++ [Asm.gMuteall.record]).length ≤ 256
      ∧ stateL.wr = stateL.pub ∧ stateL.lap = false ∧ stateL.mbox = [] ∧ stateL.active = false
      ∧ ∀ r ∈ (List.replicate 255 volumeRecord ++ [Asm.gMuteall.record]).dropLast, endsDrain r = false := by
  refine ⟨?_, rfl, rfl, rfl, rfl, ?_⟩
  · rw [List.length_append, List.length_replicate]
    decide
  rw [List.dropLast_concat]
  intro r hr
  rw [List.eq_of_mem_replicate hr]
  rfl

theorem test_meets_ReplayOfAConsumedRangeDoesNothing :
    stateL.ring.wf = true ∧ ∀ k < 256, (ringRecord stateL.ring (0xFE + BitVec.ofNat 8 k)).opcode = 0 :=
  ⟨by decide, fun _ _ => rfl⟩

theorem test_meets_LapCountsWholeRings : (pubState 0x10 0x10 false 0 []).wr = (pubState 0x10 0x10 false 0 []).pub
    ∧ (pubState 0x10 0x10 false 0 []).lap = false := by decide

theorem test_meets_The257thRecordOverwritesTheFirst :
    (List.replicate 256 volumeRecord).length = 256 ∧ stateZ.wr = stateZ.pub ∧ stateZ.lap = false ∧ stateZ.mbox = [] :=
  ⟨List.length_replicate, rfl, rfl, rfl⟩

/-- The invariant holds in a state a batch on, and a step goes on from it. -/
theorem test_meets_EveryTransitionKeepsTheInvariant :
    (waiting [.pub] (pubState 5 2 false 1 fourMessages)).Inv
      ∧ ∃ t, step (waiting [.pub] (pubState 5 2 false 1 fourMessages)) = .next t := by
  refine ⟨?_, _, rfl⟩
  constructor <;> decide

theorem test_meets_ParametersNeverChange : ∃ t, step (waiting [.reset] stateL) = .next t := ⟨_, rfl⟩

theorem test_meets_ResetSetsEveryItem : ∃ t, t = resetBlock (draining stateL) := ⟨_, rfl⟩

theorem test_meets_AgentsWriteOnlyTheirOwnState :
    (∃ t, exec (.enq volumeRecord) stateL = .next t) ∧ (∃ t, exec .pub stateL = .next t)
      ∧ (∃ t, exec .poll { stateL with mbox := fourMessages } = .next t)
      ∧ ((Instr.gSoundmode zeroArgs).opClass ≠ .transaction ∧ ∃ t, exec (.gSoundmode zeroArgs) (draining stateL) = .next t)
      ∧ ∃ t, exec .step (draining stateL) = .next t :=
  ⟨⟨_, rfl⟩, ⟨_, rfl⟩, ⟨_, rfl⟩, ⟨by decide, _, rfl⟩, ⟨_, rfl⟩⟩

theorem test_meets_HighWaterMarkNeverDecreases :
    (waiting [.pub] (pubState 5 2 false 1 [])).inputs = .pub :: [] ∧ Event.pub ≠ .reset
      ∧ (∃ t, step (waiting [.pub] (pubState 5 2 false 1 [])) = .next t)
      ∧ (waiting [.poll] stateZ).inputs = .poll :: [] ∧ Event.poll ≠ .reset
      ∧ ∃ t, step (waiting [.poll] stateZ) = .next t :=
  ⟨rfl, by decide, ⟨_, rfl⟩, rfl, by decide, _, rfl⟩

theorem test_meets_OnlyPollLoadsTheReadCursor :
    (waiting [.step] (draining stateZ)).inputs = .step :: [] ∧ (waiting [.step] (draining stateZ)).active = true
      ∧ (∃ t, step (waiting [.step] (draining stateZ)) = .next t)
      ∧ (waiting [.step] stateZ).inputs = .step :: [] ∧ (waiting [.step] stateZ).active = false
      ∧ (∃ t, step (waiting [.step] stateZ) = .next t)
      ∧ (waiting [.poll] { stateZ with mbox := fourMessages }).inputs = .poll :: []
      ∧ (∃ t, step (waiting [.poll] { stateZ with mbox := fourMessages }) = .next t)
      ∧ (waiting [.ext []] stateZ).inputs = .ext [] :: [] ∧ ∃ t, step (waiting [.ext []] stateZ) = .next t :=
  ⟨rfl, rfl, ⟨_, rfl⟩, rfl, rfl, ⟨_, rfl⟩, rfl, ⟨_, rfl⟩, rfl, _, rfl⟩

/-- Every statement about one command asks for an active drain; the global ones (GSoundmodeStoresThePayload,
MuteAndUnmuteWriteEveryPlayer, GMiscHandsTheRecordToItsHook, ReservedGlobalOnlyEndsTheDrain), PreloadHandsTheRecordToItsHook
and StopfadeStopsOrFadesOut's first clauses ask for nothing more. -/
theorem test_meets_GlobalAndPreloadStatements :
    (draining stateL).active = true ∧ ({ draining stateL with rem := 256, rd := 0xFF } : State).active = true := by decide

theorem test_meets_LoadFadeInLoadsThenFadesIn :
    (draining stateL).active = true
      ∧ (Instr.plLoadfadein (pan 0 0) = .plLoadfadein (pan 0 0) ∧ (0x82#8 : Byte) = 0x82#8)
      ∧ (Instr.plLoadfadeinB (pan 3 0) = .plLoadfadeinB (pan 3 0) ∧ (0x88#8 : Byte) = 0x88#8)
      ∧ (pan 3 0).target.toNat < stateL.players.length ∧ stateL.players.length ≤ (pan 4 0).target.toNat
      ∧ (pan 3 0).payload ≠ 0 := by decide

theorem test_meets_StopfadeStopsOrFadesOut :
    (draining stateL).active = true
      ∧ stateL.players.length ≤ (pan 4 0).target.toNat
      ∧ (zeroArgs.target.toNat < stateL.players.length ∧ zeroArgs.payload = 0)
      ∧ ((pan 3 0).payload ≠ 0 ∧ (draining stateL).players[(pan 3 0).target.toNat]? = some Player.reset) :=
  ⟨rfl, by decide, by decide, by decide, rfl⟩

theorem test_meets_FadeOutDurationHasFloorOne :
    (0 : Word).toInt < 1 ∧ (0xFFFFFFFF : Word).toInt < 1 ∧ (0x80000000 : Word).toInt < 1 := by decide

/-- Both zeros, the least subnormal, infinity. -/
theorem test_meets_DivisionByOneIsExact :
    f32IsNaN 0 = false ∧ f32IsNaN 0x80000000 = false ∧ f32IsNaN 1 = false ∧ f32IsNaN 0x7F800000 = false := by decide

/-- The least and the greatest finite divisor of NUM4. -/
theorem test_meets_NamedNumericProperties :
    ((1 : Word).msb = false ∧ (1 : Word) ≠ 0 ∧ (1 : Word) < 0x7F800000#32)
      ∧ ((0x7F7FFFFF : Word).msb = false ∧ (0x7F7FFFFF : Word) ≠ 0 ∧ (0x7F7FFFFF : Word) < 0x7F800000#32) := by decide

theorem test_meets_IgnoredManagementCommandsOnlyConsume :
    (draining stateL).active = true
      ∧ ((Instr.plStopfade (pan 4 0)).opClass = .management ∧ (Instr.plStopfade (pan 4 0)).args? = some (pan 4 0)
        ∧ (draining stateL).players.length ≤ (pan 4 0).target.toNat)
      ∧ ((Instr.rsvdMgmt 0x80 (pan 0 0)).opClass = .management ∧ (Instr.rsvdMgmt 0x80 (pan 0 0)).args? = some (pan 0 0)
        ∧ ∃ op, Instr.rsvdMgmt 0x80 (pan 0 0) = .rsvdMgmt op (pan 0 0)) :=
  ⟨rfl, by decide, rfl, rfl, _, rfl⟩

theorem test_meets_ManagementCommandsFrame :
    (Instr.plStopfade (pan 1 0)).opClass = .management ∧ (Instr.plStopfade (pan 1 0)).args? = some (pan 1 0)
      ∧ (draining stateL).active = true ∧ (∃ t, exec (.plStopfade (pan 1 0)) (draining stateL) = .next t)
      ∧ (pan 1 0).target.toNat < (draining stateL).players.length
      ∧ (draining stateL).players[(pan 1 0).target.toNat]? = some (loadedPlayer true [3]) :=
  ⟨rfl, rfl, rfl, ⟨_, rfl⟩, by decide, rfl⟩

/-- FadevolscaleCopiesBitsAndMarksDirty, VariationWritesTheIndexedByte, TempoIsTheTruncatedProduct and
TransposeStoresTheTopByte: the last player, which is disabled. -/
theorem test_meets_ParameterStatements :
    (draining stateL).active = true ∧ (draining stateL).players[(pan 3 0).target.toNat]? = some Player.reset :=
  ⟨rfl, rfl⟩

theorem test_meets_IgnoredParameterCommandsOnlyConsume :
    (draining stateL).active = true
      ∧ ((Instr.plTempo (pan 4 0)).opClass = .parameter ∧ (Instr.plTempo (pan 4 0)).args? = some (pan 4 0)
        ∧ (draining stateL).players.length ≤ (pan 4 0).target.toNat)
      ∧ ((Instr.rsvdParam 0x7F (pan 0 0)).opClass = .parameter ∧ (Instr.rsvdParam 0x7F (pan 0 0)).args? = some (pan 0 0)
        ∧ ∃ op, Instr.rsvdParam 0x7F (pan 0 0) = .rsvdParam op (pan 0 0)) :=
  ⟨rfl, by decide, rfl, rfl, _, rfl⟩

theorem test_meets_ParameterCommandsFrame :
    (Instr.plTempo (pan 3 0)).opClass = .parameter ∧ (Instr.plTempo (pan 3 0)).args? = some (pan 3 0)
      ∧ (∃ t, exec (.plTempo (pan 3 0)) (draining stateL) = .next t)
      ∧ (draining stateL).players[(pan 3 0).target.toNat]? = some Player.reset :=
  ⟨rfl, rfl, ⟨_, rfl⟩, rfl⟩

/-- ChannelFloatCommandsCopyAndMark, ChannelByteCommandsStoreTheTopByte and ScriptioWritesAnIndexBelowEight: the gate
open at the last channel, 15. -/
theorem test_meets_ChannelStatements :
    ∃ (P : Player) (h : (pan 1 15).arg2.toNat < 16),
      ({ draining stateL with players := [Player.reset, loadedPlayer true [15]] } : State).active = true
        ∧ ({ draining stateL with players := [Player.reset, loadedPlayer true [15]] } : State).players[1]? = some P
        ∧ P.enabled = true ∧ P.chans[(pan 1 15).arg2.toNat] = some Channel.zero :=
  ⟨loadedPlayer true [15], by decide, rfl, rfl, rfl, by decide +kernel⟩

/-- Each of the gate's four conditions failing, at the bounds. -/
theorem test_meets_ChannelGateIgnoresTheCommand :
    (draining stateL).active = true
      ∧ ((Instr.chPan (pan 4 0)).opClass = .channel ∧ (Instr.chPan (pan 4 0)).args? = some (pan 4 0)
        ∧ (draining stateL).players.length ≤ (pan 4 0).target.toNat)
      ∧ (∃ P, (draining stateL).players[(pan 2 0).target.toNat]? = some P ∧ P.enabled = false)
      ∧ 16 ≤ (pan 0 16).arg2.toNat
      ∧ ∃ (P : Player) (h : (pan 0 4).arg2.toNat < 16),
          (draining stateL).players[(pan 0 4).target.toNat]? = some P ∧ P.chans[(pan 0 4).arg2.toNat] = none :=
  ⟨rfl, by decide, ⟨_, rfl, rfl⟩, by decide, loadedPlayer true [0, 1, 2, 3], by decide, rfl, by decide +kernel⟩

theorem test_meets_ReservedChannelOpcodesOnlyConsume :
    (draining stateL).active = true ∧ Instr.nop zeroArgs = .nop zeroArgs
      ∧ Instr.rsvdChan07 zeroArgs = .rsvdChan07 zeroArgs ∧ Instr.rsvdChan 0x3F zeroArgs = .rsvdChan 0x3F zeroArgs := by
  decide

theorem test_meets_ChannelCommandsFrame :
    (Instr.chPan (pan 0 1)).opClass = .channel ∧ (Instr.chPan (pan 0 1)).args? = some (pan 0 1)
      ∧ (∃ t, exec (.chPan (pan 0 1)) (draining stateL) = .next t)
      ∧ (draining stateL).players[(pan 0 1).target.toNat]? = some (loadedPlayer true [0, 1, 2, 3])
      ∧ (loadedPlayer true [0, 1, 2, 3]).chan? 1 = some Channel.zero :=
  ⟨rfl, rfl, ⟨_, rfl⟩, rfl, by decide +kernel⟩

/-- The last player and the last channel, and one past each. -/
theorem test_meets_ExtWritesItsTargetAndNothingElse :
    (3 : Byte).toNat < stateL.players.length ∧ stateL.players.length ≤ (4 : Byte).toNat
      ∧ stateL.players[(3 : Byte).toNat]? = some Player.reset
      ∧ (15 : Byte).toNat < 16 ∧ 16 ≤ (16 : Byte).toNat ∧ (14 : Byte) ≠ 15 ∧ 2 ≠ (3 : Byte).toNat :=
  ⟨by decide, by decide, rfl, by decide, by decide, by decide, by decide⟩

/-- Four players, and R4's most. -/
theorem test_meets_ExtReachesEveryPlayerFile :
    ((List.replicate 4 (loadedPlayer true [15])).length = stateL.players.length
        ∧ (List.replicate 4 (loadedPlayer true [15])).length ≤ 256)
      ∧ ((List.replicate 256 (loadedPlayer true [15])).length = (State.resetWith 256 48 []).players.length
        ∧ (List.replicate 256 (loadedPlayer true [15])).length ≤ 256) :=
  ⟨⟨rfl, by decide⟩, by
    simp only [State.resetWith, List.length_replicate]
    decide⟩

end Sys2Proof.Tests
end

section

namespace Sys2Proof.Machine

/-! ### Rules of PUB and of the mailbox (R101, R102) -/

theorem exec_pub (s : State) : exec .pub s = execPub s := rfl

theorem send_of_lt {mbox : List Msg} (h : mbox.length < 4) (m : Msg) : send mbox m = mbox ++ [m] :=
  if_pos h

/-- The message a PUB sends from a state, whether or not the mailbox takes it (R101). -/
def pubMsg (s : State) : Msg := { full := s.lap, start := s.pub, stop := s.wr }

theorem exec_pub_appends {s : State} (h : s.mbox.length < 4) :
    ∃ t, exec .pub s = .next t ∧ t.mbox = s.mbox ++ [pubMsg s] :=
  ⟨_, exec_pub s, send_of_lt h (pubMsg s)⟩

/-! ### The fields of the message word (R87) -/

@[simp] theorem Msg.pack_bits_stop (m : Msg) : m.pack.extractLsb' 0 8 = m.stop :=
  BitVec.extractLsb'_append_eq_right

@[simp] theorem Msg.pack_bits_start (m : Msg) : m.pack.extractLsb' 8 8 = m.start := by
  unfold Msg.pack
  rw [BitVec.extractLsb'_append_eq_of_le (by decide)]
  exact BitVec.extractLsb'_append_eq_right

theorem Msg.pack_bit_full (m : Msg) : m.pack.getLsbD 16 = m.full := by
  unfold Msg.pack
  rw [BitVec.getLsbD_append, BitVec.getLsbD_append, BitVec.getLsbD_append]
  simp

@[simp] theorem Msg.pack_bits_above (m : Msg) : m.pack.extractLsb' 17 15 = 0 := by
  unfold Msg.pack
  rw [BitVec.extractLsb'_append_eq_of_le (by decide), BitVec.extractLsb'_append_eq_of_le (by decide)]
  exact BitVec.extractLsb'_append_eq_left

theorem Msg.unpack_pack (m : Msg) : Msg.unpack m.pack = m := by
  simp only [Msg.unpack, Msg.pack_bit_full, Msg.pack_bits_start, Msg.pack_bits_stop]

/-! ### The range length (R87) -/

theorem Msg.count_toNat (m : Msg) :
    m.count.toNat = if m.full = true then 256 else (m.stop.toNat + 256 - m.start.toNat) % 256 := by
  unfold Msg.count
  split
  · rfl
  · bv_omega

/-- Settles O6: the message PUB appends is `pubMsg`, and each field of a packed word is read back on its own. -/
theorem publishMessageWordPacksAndUnpacks : Obligations.PublishMessageWordPacksAndUnpacks := by
  refine ⟨fun s hroom => ?_, fun m => ⟨m.unpack_pack, m.count_toNat⟩⟩
  obtain ⟨t, hexec, hmbox⟩ := exec_pub_appends hroom
  exact ⟨t, pubMsg s, hexec, hmbox, (pubMsg s).pack_bits_stop, (pubMsg s).pack_bits_start,
    (pubMsg s).pack_bit_full, (pubMsg s).pack_bits_above⟩

end Sys2Proof.Machine
end

section

namespace Sys2Proof.Machine

/-! ### Rules of the producer's transactions (R100 to R102) -/

theorem exec_enq (r : Rec) (s : State) :
    exec (.enq r) s = .next { s with
      ring := ringStore s.ring s.wr r
      wr := s.wr + 1
      lap := lapAfterEnq (s.wr + 1) s.pub } := rfl

/-- Settles O11: what is read from slot `wr` and from every other slot after the record is stored. -/
theorem enqStoresTheRecordAndAdvances : Obligations.EnqStoresTheRecordAndAdvances := fun s r =>
  ⟨_, exec_enq r s, rfl, ringRecord_ringStore_same s.ring s.wr r,
    fun _ hother => ringRecord_ringStore_other s.ring r hother⟩

/-- R102: a full mailbox keeps the messages it holds, and the new one is lost. -/
theorem send_of_le {mbox : List Msg} (h : 4 ≤ mbox.length) (m : Msg) : send mbox m = mbox :=
  if_neg (Nat.not_lt.mpr h)

/-- Settles O12: PUB is one update, in which only `send` depends on the room in the mailbox. -/
theorem pubSendsOrDropsAndAlwaysMovesPub : Obligations.PubSendsOrDropsAndAlwaysMovesPub := by
  refine fun s => ⟨fun hroom => ?_, fun hfull => ?_⟩
  · rw [exec_pub, execPub, send_of_lt hroom]
    rfl
  · rw [exec_pub, execPub, send_of_le hfull]
    rfl

/-! ### Rules of POLL (R103) -/

theorem exec_poll (s : State) : exec .poll s = execPoll s := rfl

theorem exec_poll_of_active {s : State} (h : s.active = true) : exec .poll s = .next s := by
  rw [exec_poll, execPoll, if_pos h]

theorem exec_poll_of_empty {s : State} (h : s.mbox = []) : exec .poll s = .next s := by
  simp only [exec_poll, execPoll, h, ite_self]

theorem exec_poll_of_cons {s : State} {m : Msg} {ms : List Msg} (hidle : s.active = false)
    (hmbox : s.mbox = m :: ms) :
    exec .poll s = .next { s with
      mbox := ms
      rd := m.start
      rem := m.count
      active := activeFor m.count } := by
  simp [exec_poll, execPoll, hidle, hmbox]

/-- A drain goes on exactly while the number of slots left is not 0 (R103, R104). -/
theorem activeFor_iff_toNat {rem : BitVec 9} : activeFor rem = true ↔ rem.toNat ≠ 0 :=
  activeFor_eq_true.trans BitVec.toNat_ne_iff_ne.symm

/-- Settles O13: one rule of POLL for each case, and the length of the loaded range from `Msg.count_toNat`. -/
theorem pollLoadsTheOldestRange : Obligations.PollLoadsTheOldestRange := fun _ =>
  ⟨exec_poll_of_active, exec_poll_of_empty, fun m _ hidle hmbox =>
    ⟨_, exec_poll_of_cons hidle hmbox, rfl, m.count_toNat, activeFor_iff_toNat⟩⟩

/-! ### `apply` writes only sequencer registers (R105) -/

/-- A dispatch on the record chooses between effects that keep the queue. -/
theorem KeepsQueue.dispatch {f g : State → State} {c : Prop} [Decidable c] (hf : KeepsQueue f)
    (hg : KeepsQueue g) : KeepsQueue (fun s => if c then f s else g s) := by
  by_cases h : c
  · simpa only [if_pos h] using hf
  · simpa only [if_neg h] using hg

theorem keepsQueue_applyGlobal (r : Rec) : KeepsQueue (applyGlobal r) :=
  (keepsQueue_soundModeEffect _).dispatch <| (keepsQueue_modifyAllPlayers _).dispatch <|
    (keepsQueue_modifyAllPlayers _).dispatch <| (keepsQueue_runHook _).dispatch keepsQueue_id

theorem keepsQueue_applyManagement (r : Rec) : KeepsQueue (applyManagement r) :=
  (keepsQueue_runHook _).dispatch <| (keepsQueue_loadFadeInEffect _ _).dispatch <|
    (keepsQueue_stopFadeEffect _).dispatch keepsQueue_id

theorem keepsQueue_applyParameter (r : Rec) : KeepsQueue (applyParameter r) :=
  (keepsQueue_modifyPlayer _ _).dispatch <| (keepsQueue_modifyPlayer _ _).dispatch <|
    (keepsQueue_tempoEffect _).dispatch <| (keepsQueue_modifyPlayer _ _).dispatch keepsQueue_id

theorem keepsQueue_applyChannel (r : Rec) : KeepsQueue (applyChannel r) :=
  (keepsQueue_modifyChannel _ _ _).dispatch <| (keepsQueue_modifyChannel _ _ _).dispatch <|
    (keepsQueue_modifyChannel _ _ _).dispatch <| (keepsQueue_modifyChannel _ _ _).dispatch <|
    (keepsQueue_modifyChannel _ _ _).dispatch <| (keepsQueue_modifyChannel _ _ _).dispatch <|
    (keepsQueue_modifyChannel _ _ _).dispatch keepsQueue_id

theorem keepsQueue_applyRecord (r : Rec) : KeepsQueue (applyRecord r) :=
  (keepsQueue_applyGlobal r).dispatch <|
    ((keepsQueue_applyManagement r).gatedByPlayer r.toArgs).dispatch <|
    ((keepsQueue_applyParameter r).gatedByPlayer r.toArgs).dispatch <|
    (keepsQueue_applyChannel r).gatedByChannel r.toArgs

/-! ### Rules of STEP (R104) -/

theorem exec_step (s : State) :
    exec .step s = interpret (endsDrain (ringRecord s.ring s.rd)) (applyRecord (ringRecord s.ring s.rd)) s := rfl

theorem exec_step_of_inactive {s : State} (h : s.active = false) : exec .step s = .next s := by
  rw [exec_step, interpret_inactive h]

/-- A STEP of an active drain, every written field given over the state before it. -/
theorem exec_step_of_active {s : State} (h : s.active = true) :
    exec .step s = .next { s with
      soundMode := (applyRecord (ringRecord s.ring s.rd) s).soundMode
      players := (applyRecord (ringRecord s.ring s.rd) s).players
      ring := clearOpcode s.ring s.rd
      rd := s.rd + 1
      rem := remAfterStep (endsDrain (ringRecord s.ring s.rd)) s.rem
      active := activeFor (remAfterStep (endsDrain (ringRecord s.ring s.rd)) s.rem) } := by
  rw [exec_step, interpret_active h, (keepsQueue_applyRecord _).retire_eq]

/-- Settles O14: `apply` keeps the queue, so the fields of the next state beside its two are those that `retire`
writes; of the ring only the opcode at `rd` changes. -/
theorem stepAppliesZeroesAndAdvances : Obligations.StepAppliesZeroesAndAdvances := fun s =>
  ⟨exec_step_of_inactive, fun hactive =>
    ⟨_, exec_step_of_active hactive, rfl, ringRecord_clearOpcode_same s.ring s.rd,
      fun _ hother => ringRecord_clearOpcode_other s.ring hother, rfl, activeFor_eq_true⟩⟩

end Sys2Proof.Machine
end

section

namespace Sys2Proof.Machine

/-! ### A command of an active drain, every written field given over the state before it (R104, R106, R130) -/

theorem KeepsQueue.interpret_eq_of_active {effect : State → State} (h : KeepsQueue effect) (term : Bool) {s : State}
    (hactive : s.active = true) :
    interpret term effect s = .next { s with
      soundMode := (effect s).soundMode
      players := (effect s).players
      ring := clearOpcode s.ring s.rd
      rd := s.rd + 1
      rem := remAfterStep term s.rem
      active := activeFor (remAfterStep term s.rem) } := by
  rw [interpret_active hactive, h.retire_eq]

/-- The early exit of a global command: no slot is left, whatever `rem` was. -/
theorem KeepsQueue.interpret_global {effect : State → State} (h : KeepsQueue effect) {s : State}
    (hactive : s.active = true) :
    interpret true effect s = .next { s with
      soundMode := (effect s).soundMode
      players := (effect s).players
      ring := clearOpcode s.ring s.rd
      rd := s.rd + 1
      rem := 0
      active := false } := by
  rw [h.interpret_eq_of_active true hactive, remAfterStep_true, activeFor_zero]

/-! ### Rules of the global commands (R131 to R135) -/

theorem exec_gSoundmode (a : Args) (s : State) :
    exec (.gSoundmode a) s = interpret true (soundModeEffect a) s := rfl

theorem exec_gMuteall (a : Args) (s : State) : exec (.gMuteall a) s = interpret true muteAllEffect s := rfl

theorem exec_gUnmuteall (a : Args) (s : State) : exec (.gUnmuteall a) s = interpret true unmuteAllEffect s := rfl

theorem exec_gMisc (a : Args) (s : State) : exec (.gMisc a) s = interpret true (miscEffect a) s := rfl

theorem exec_rsvdGlobal (op : Byte) (a : Args) (s : State) :
    exec (.rsvdGlobal op a) s = interpret true id s := rfl

theorem keepsQueue_muteAllEffect : KeepsQueue muteAllEffect := keepsQueue_modifyAllPlayers _

theorem keepsQueue_unmuteAllEffect : KeepsQueue unmuteAllEffect := keepsQueue_modifyAllPlayers _

theorem keepsQueue_miscEffect (a : Args) : KeepsQueue (miscEffect a) := keepsQueue_runHook _

/-- Settles O33: the effect writes the sound mode alone, and the early exit does the rest. -/
theorem gSoundmodeStoresThePayload : Obligations.GSoundmodeStoresThePayload := by
  intro s a hactive
  rw [exec_gSoundmode, (keepsQueue_soundModeEffect a).interpret_global hactive, soundModeEffect_soundMode,
    soundModeEffect_players]

/-- Settles O34: both commands map one flag over the player file, and the early exit does the rest. -/
theorem muteAndUnmuteWriteEveryPlayer : Obligations.MuteAndUnmuteWriteEveryPlayer := by
  refine fun s a hactive => ⟨?_, ?_⟩
  · rw [exec_gMuteall, keepsQueue_muteAllEffect.interpret_global hactive, muteAllEffect,
      modifyAllPlayers_soundMode, modifyAllPlayers_players]
  · rw [exec_gUnmuteall, keepsQueue_unmuteAllEffect.interpret_global hactive, unmuteAllEffect,
      modifyAllPlayers_soundMode, modifyAllPlayers_players]

/-- Settles O35: the hook's answer is the new player file, and the early exit does the rest. -/
theorem gMiscHandsTheRecordToItsHook : Obligations.GMiscHandsTheRecordToItsHook := by
  intro s a hactive
  rw [exec_gMisc, (keepsQueue_miscEffect a).interpret_global hactive, miscEffect, runHook_soundMode,
    runHook_players, Args.withOpcode]

/-- Settles O36: with no effect on a register, only the early exit is left. -/
theorem reservedGlobalOnlyEndsTheDrain : Obligations.ReservedGlobalOnlyEndsTheDrain := by
  intro s op a hactive
  rw [exec_rsvdGlobal, keepsQueue_id.interpret_global hactive, id]

end Sys2Proof.Machine
end

section

namespace Sys2Proof.Machine

/-! ### A command whose effect reaches only the player file, under the gate of R140 and R160 -/

/-- Such a command in an active drain lets the drain go on (R104). -/
theorem interpret_players {effect : State → State} {s : State} {ps : List Player} (hactive : s.active = true)
    (heffect : effect s = { s with players := ps }) :
    interpret false effect s = .next { s with
      players := ps
      ring := clearOpcode s.ring s.rd
      rd := s.rd + 1
      rem := s.rem - 1
      active := decide (s.rem - 1 ≠ 0) } := by
  rw [interpret_active hactive, heffect]
  rfl

theorem gatedByPlayer_players {effect : State → State} {s : State} {ps : List Player} (a : Args)
    (heffect : effect s = { s with players := ps }) :
    gatedByPlayer a effect s =
      { s with players := if a.target.toNat < s.players.length then ps else s.players } := by
  by_cases h : a.target.toNat < s.players.length
  · rw [gatedByPlayer_of_lt h, heffect, if_pos h]
  · rw [gatedByPlayer_of_le (Nat.not_lt.mp h), if_neg h]

theorem interpret_gatedByPlayer {effect : State → State} {s : State} {ps : List Player} (a : Args)
    (hactive : s.active = true) (heffect : effect s = { s with players := ps }) :
    interpret false (gatedByPlayer a effect) s = .next { s with
      players := if a.target.toNat < s.players.length then ps else s.players
      ring := clearOpcode s.ring s.rd
      rd := s.rd + 1
      rem := s.rem - 1
      active := decide (s.rem - 1 ≠ 0) } :=
  interpret_players hactive (gatedByPlayer_players a heffect)

/-- The next state of such a command, by whether its target exists. -/
theorem exists_interpret_gatedByPlayer {effect : State → State} {s : State} (a : Args) (hactive : s.active = true)
    (hkeeps : KeepsQueue effect) (heffect : effect s = { s with players := (effect s).players }) :
    ∃ t, interpret false (gatedByPlayer a effect) s = .next t
      ∧ t = { s with
          players := t.players
          ring := clearOpcode s.ring s.rd
          rd := s.rd + 1
          rem := s.rem - 1
          active := decide (s.rem - 1 ≠ 0) }
      ∧ t.players.length = s.players.length
      ∧ (s.players.length ≤ a.target.toNat → t.players = s.players)
      ∧ (a.target.toNat < s.players.length → t.players = (effect s).players) := by
  refine ⟨_, interpret_gatedByPlayer a hactive heffect, rfl, ?_,
    fun habsent => if_neg (Nat.not_lt.mpr habsent), fun hexists => if_pos hexists⟩
  simp only [apply_ite List.length, hkeeps.length_eq s, ite_self]

/-- No effect needs no gate. -/
theorem gatedByPlayer_id (a : Args) : gatedByPlayer a id = id := funext fun _ => ite_self _

/-- The player found after a hook and, on top of it, a write to player `q` (R147). -/
theorem modifyPlayer_runHook_getElem? (q : Byte) (f : Player → Player) (answer : List Player → Nat → Player)
    (s : State) {p : Nat} (hp : p < s.players.length) :
    (modifyPlayer q f (runHook answer s)).players[p]? =
      some (if p = q.toNat then f (answer s.players p) else answer s.players p) := by
  have hhook := runHook_getElem? answer s hp
  rw [modifyPlayer_players]
  by_cases h : p = q.toNat
  · rw [if_pos h, ← h, List.getElem?_modify_eq, hhook, Option.map_eq_map, Option.map_some]
  · rw [if_neg h, getElem?_modify_other f h, hhook]

/-! ### Rules of the player-management commands (R141 to R148) -/

theorem exec_plPreload (a : Args) (s : State) :
    exec (.plPreload a) s = interpret false (gatedByPlayer a (preloadEffect a)) s := rfl

theorem exec_plLoadfadein (a : Args) (s : State) :
    exec (.plLoadfadein a) s = interpret false (gatedByPlayer a (loadFadeInEffect 0x82 a)) s := rfl

theorem exec_plLoadfadeinB (a : Args) (s : State) :
    exec (.plLoadfadeinB a) s = interpret false (gatedByPlayer a (loadFadeInEffect 0x88 a)) s := rfl

theorem exec_plStopfade (a : Args) (s : State) :
    exec (.plStopfade a) s = interpret false (gatedByPlayer a (stopFadeEffect a)) s := rfl

theorem exec_rsvdMgmt (op : Byte) (a : Args) (s : State) : exec (.rsvdMgmt op a) s = interpret false id s := rfl

theorem preloadEffect_eq (a : Args) (s : State) :
    preloadEffect a s = { s with
      players := s.players.mapIdx fun p _ => Config.extPreload (a.withOpcode 0x81) s.players p } := rfl

theorem loadFadeInEffect_eq (op : Byte) (a : Args) (s : State) :
    loadFadeInEffect op a s = { s with players := (loadFadeInEffect op a s).players } := rfl

theorem stopFadeEffect_of_zero {a : Args} (h : a.payload = 0) (s : State) :
    stopFadeEffect a s = stopPlayer a.target s := if_pos h

theorem stopFadeEffect_of_ne_zero {a : Args} (h : a.payload ≠ 0) (s : State) :
    stopFadeEffect a s = fadeToZero a.target a.payload s := if_neg h

theorem stopFadeEffect_eq (a : Args) (s : State) :
    stopFadeEffect a s = { s with players := (stopFadeEffect a s).players } := by
  by_cases h : a.payload = 0
  · rw [stopFadeEffect_of_zero h]
    rfl
  · rw [stopFadeEffect_of_ne_zero h]
    rfl

/-- R146: a fade-in over no time leaves the player as the loader left it. -/
theorem Player.fadeIn_zero (P : Player) : Player.fadeIn 0 P = P := if_pos rfl

theorem Player.fadeIn_of_ne_zero {d : Word} (h : d ≠ 0) (P : Player) :
    Player.fadeIn d P = { P with
      state := .fadingIn
      fadeRemaining := d
      fadeVolume := 0x00000000#32
      fadeVelocity := 0x00000000#32 } := if_neg h

/-- R145: the signed comparison of the clamp, on the number the duration stands for. -/
theorem clampDuration_eq (d : Word) : clampDuration d = if d.toInt < 1 then 1 else d := by
  simp [clampDuration, BitVec.slt_iff_toInt_lt]

/-- The fade-out rewrites one player that exists (R145). -/
theorem fadeToZero_players {s : State} {p : Byte} {P : Player} (d : Word) (h : s.players[p.toNat]? = some P) :
    (fadeToZero p d s).players = s.players.set p.toNat (P.fadeToZero d) :=
  modify_eq_set _ h

/-- Settles O37: the effect is the hook's answer, under the gate. -/
theorem preloadHandsTheRecordToItsHook : Obligations.PreloadHandsTheRecordToItsHook := by
  intro s a hactive
  rw [exec_plPreload, interpret_gatedByPlayer a hactive (preloadEffect_eq a s), Args.withOpcode]

/-- The two loading commands are one command, but for the opcode their hook sees (R143). -/
theorem exec_loadFadeIn {i : Instr} {op : Byte} {a : Args}
    (h : (i = .plLoadfadein a ∧ op = 0x82#8) ∨ (i = .plLoadfadeinB a ∧ op = 0x88#8)) (s : State) :
    exec i s = interpret false (gatedByPlayer a (loadFadeInEffect op a)) s := by
  obtain ⟨rfl, rfl⟩ | ⟨rfl, rfl⟩ := h
  · exact exec_plLoadfadein a s
  · exact exec_plLoadfadeinB a s

/-- What a loading command leaves of each player, its target being one of them (R142, R146). -/
theorem loadFadeInEffect_getElem? (op : Byte) (a : Args) (s : State) {p : Nat} (hp : p < s.players.length) :
    (loadFadeInEffect op a s).players[p]? = some
      (if p = a.target.toNat ∧ a.payload ≠ 0 then
        { Config.extLoad { a with opcode := op } s.players p with
          state := .fadingIn
          fadeRemaining := a.payload
          fadeVolume := 0x00000000#32
          fadeVelocity := 0x00000000#32 }
      else Config.extLoad { a with opcode := op } s.players p) := by
  rw [loadFadeInEffect, fadeIn, asInt32, modifyPlayer_runHook_getElem? _ _ _ s hp, Args.withOpcode]
  by_cases htarget : p = a.target.toNat
  · by_cases hpayload : a.payload = 0
    · rw [if_pos htarget, if_neg fun h => h.2 hpayload, hpayload, Player.fadeIn_zero]
    · rw [if_pos htarget, if_pos ⟨htarget, hpayload⟩, Player.fadeIn_of_ne_zero hpayload]
  · rw [if_neg htarget, if_neg fun h => htarget h.1]

/-- Settles O38: the loader, then the fade-in on its target, under the gate. -/
theorem loadFadeInLoadsThenFadesIn : Obligations.LoadFadeInLoadsThenFadesIn := by
  intro s a i op hactive hi
  obtain ⟨t, hexec, hframe, hlength, habsent, hpresent⟩ :=
    exists_interpret_gatedByPlayer a hactive (keepsQueue_loadFadeInEffect op a) (loadFadeInEffect_eq op a s)
  refine ⟨t, (exec_loadFadeIn hi s).trans hexec, hframe, hlength, habsent, fun hexists p hp => ?_⟩
  rw [hpresent hexists]
  exact loadFadeInEffect_getElem? op a s hp

/-- Settles O39: the stop or the fade-out, by the payload, under the gate. -/
theorem stopfadeStopsOrFadesOut : Obligations.StopfadeStopsOrFadesOut := by
  intro s a hactive
  obtain ⟨t, hexec, hframe, hlength, habsent, hpresent⟩ :=
    exists_interpret_gatedByPlayer a hactive (keepsQueue_stopFadeEffect a) (stopFadeEffect_eq a s)
  refine ⟨t, (exec_plStopfade a s).trans hexec, hframe, hlength, habsent,
    fun hexists hzero p hp => ?_, fun P hne hP => ?_⟩
  · rw [hpresent hexists, stopFadeEffect_of_zero hzero]
    exact modifyPlayer_runHook_getElem? a.target _ _ s hp
  · have hexists : a.target.toNat < s.players.length := (List.getElem?_eq_some_iff.mp hP).1
    rw [hpresent hexists, stopFadeEffect_of_ne_zero hne, fadeToZero_players _ hP, Player.fadeToZero,
      clampDuration_eq]

/-- R140: what the class's commands have in common; a reserved one has no effect to gate (R148). -/
theorem exec_management {i : Instr} {a : Args} (hclass : i.opClass = .management) (hargs : i.args? = some a)
    (s : State) :
    ∃ effect ps, exec i s = interpret false (gatedByPlayer a effect) s ∧ effect s = { s with players := ps } := by
  cases i with
  | plPreload b =>
    obtain rfl := Option.some.inj hargs
    exact ⟨_, _, exec_plPreload b s, preloadEffect_eq b s⟩
  | plLoadfadein b =>
    obtain rfl := Option.some.inj hargs
    exact ⟨_, _, exec_plLoadfadein b s, loadFadeInEffect_eq _ b s⟩
  | plLoadfadeinB b =>
    obtain rfl := Option.some.inj hargs
    exact ⟨_, _, exec_plLoadfadeinB b s, loadFadeInEffect_eq _ b s⟩
  | plStopfade b =>
    obtain rfl := Option.some.inj hargs
    exact ⟨_, _, exec_plStopfade b s, stopFadeEffect_eq b s⟩
  | rsvdMgmt op b => exact ⟨id, s.players, by rw [exec_rsvdMgmt, gatedByPlayer_id], rfl⟩
  | _ => cases hclass

/-- Settles O43: the gate is shut for an absent player, and a reserved opcode has no effect at all. -/
theorem ignoredManagementCommandsOnlyConsume : Obligations.IgnoredManagementCommandsOnlyConsume := by
  intro s i a hactive hclass hargs hignored
  obtain habsent | ⟨op, rfl⟩ := hignored
  · obtain ⟨effect, ps, hexec, heffect⟩ := exec_management hclass hargs s
    rw [hexec, interpret_gatedByPlayer a hactive heffect, if_neg (Nat.not_lt.mpr habsent)]
  · exact (exec_rsvdMgmt op a s).trans (interpret_players hactive rfl)

end Sys2Proof.Machine
end

section

namespace Sys2Proof.Machine

/-! ### A command that writes its target player, under the gate of R160 -/

theorem modifyPlayer_id (p : Byte) : modifyPlayer p id = id := by
  funext s
  rw [modifyPlayer, List.modify_id, id]

theorem interpret_modifyTarget {s : State} {P : Player} (a : Args) (f : Player → Player) (hactive : s.active = true)
    (hP : s.players[a.target.toNat]? = some P) :
    interpret false (gatedByPlayer a (modifyPlayer a.target f)) s = .next { s with
      players := s.players.set a.target.toNat (f P)
      ring := clearOpcode s.ring s.rd
      rd := s.rd + 1
      rem := s.rem - 1
      active := decide (s.rem - 1 ≠ 0) } := by
  have hexists : a.target.toNat < s.players.length := (List.getElem?_eq_some_iff.mp hP).1
  rw [interpret_gatedByPlayer a hactive rfl, if_pos hexists, modify_eq_set f hP]

/-! ### Rules of the player-parameter commands (R161 to R165) -/

theorem exec_plFadevolscale (a : Args) (s : State) :
    exec (.plFadevolscale a) s = interpret false (gatedByPlayer a (modifyPlayer a.target fun P =>
      { P with fadeVolumeScale := a.payload, volDirty := true })) s := rfl

theorem exec_plVariation (a : Args) (s : State) :
    exec (.plVariation a) s = interpret false (gatedByPlayer a (modifyPlayer a.target fun P =>
      { P with variation := P.variation.set a.arg3.toNat (asSignedByte a.payload) a.arg3.isLt })) s := rfl

/-- The factor is a parameter, so the write is to one player, as in the other commands. -/
theorem exec_plTempo (a : Args) (s : State) :
    exec (.plTempo a) s = interpret false (gatedByPlayer a (modifyPlayer a.target fun P =>
      { P with tempo := tempoProduct a.payload s.ticksPerBeat })) s := rfl

theorem exec_plTranspose (a : Args) (s : State) :
    exec (.plTranspose a) s = interpret false (gatedByPlayer a (modifyPlayer a.target fun P =>
      { P with transposition := a.payload.extractLsb' 24 8 })) s := rfl

theorem exec_rsvdParam (op : Byte) (a : Args) (s : State) : exec (.rsvdParam op a) s = interpret false id s := rfl

/-- R160: what the class's commands have in common; the write of a reserved one is the identity (R165). -/
theorem exec_parameter {i : Instr} {a : Args} (hclass : i.opClass = .parameter) (hargs : i.args? = some a)
    (s : State) :
    ∃ f, exec i s = interpret false (gatedByPlayer a (modifyPlayer a.target f)) s := by
  cases i with
  | plFadevolscale b =>
    obtain rfl := Option.some.inj hargs
    exact ⟨_, exec_plFadevolscale b s⟩
  | plVariation b =>
    obtain rfl := Option.some.inj hargs
    exact ⟨_, exec_plVariation b s⟩
  | plTempo b =>
    obtain rfl := Option.some.inj hargs
    exact ⟨_, exec_plTempo b s⟩
  | plTranspose b =>
    obtain rfl := Option.some.inj hargs
    exact ⟨_, exec_plTranspose b s⟩
  | rsvdParam op b => exact ⟨id, by rw [exec_rsvdParam, modifyPlayer_id, gatedByPlayer_id]⟩
  | _ => cases hclass

/-- One byte register of an array of 256 read after a write to one: equal indices are equal bytes. -/
theorem getElem_set_byte (v : Vector Byte 256) (i j : Byte) (b : Byte) :
    (v.set i.toNat b i.isLt)[j.toNat] = if j = i then b else v[j.toNat] := by
  simp only [Vector.getElem_set, BitVec.toNat_inj, eq_comm (a := i)]

/-- R163: the product is truncated to 32 bits after it is formed exactly. -/
theorem tempoProduct_toNat (payload : Word) (ticks : Nat) :
    ((tempoProduct payload ticks).toNat : Int) = (payload.toInt * ticks) % 2 ^ 32 := by
  have hnonneg : 0 ≤ (payload.toInt * ticks) % 2 ^ 32 := Int.emod_nonneg _ (by decide)
  rw [tempoProduct, asInt32, BitVec.toNat_ofInt]
  exact Int.toNat_of_nonneg hnonneg

/-- Settles O45: the rule of PL_FADEVOLSCALE at a target that exists. -/
theorem fadevolscaleCopiesBitsAndMarksDirty : Obligations.FadevolscaleCopiesBitsAndMarksDirty :=
  fun s a _ hactive hP => (exec_plFadevolscale a s).trans (interpret_modifyTarget a _ hactive hP)

/-- Settles O46: the array written by PL_VARIATION, read back at every index. -/
theorem variationWritesTheIndexedByte : Obligations.VariationWritesTheIndexedByte :=
  fun s a P hactive hP => ⟨_, (exec_plVariation a s).trans (interpret_modifyTarget a _ hactive hP),
    fun i => getElem_set_byte P.variation a.arg3 i _⟩

/-- Settles O47: the word PL_TEMPO stores, as a number. -/
theorem tempoIsTheTruncatedProduct : Obligations.TempoIsTheTruncatedProduct :=
  fun s a _ hactive hP => ⟨_, (exec_plTempo a s).trans (interpret_modifyTarget a _ hactive hP),
    tempoProduct_toNat a.payload s.ticksPerBeat⟩

/-- Settles O48: the rule of PL_TRANSPOSE at a target that exists. -/
theorem transposeStoresTheTopByte : Obligations.TransposeStoresTheTopByte :=
  fun s a _ hactive hP => (exec_plTranspose a s).trans (interpret_modifyTarget a _ hactive hP)

/-- Settles O49: the gate is shut for an absent player, and a reserved opcode has no effect at all. -/
theorem ignoredParameterCommandsOnlyConsume : Obligations.IgnoredParameterCommandsOnlyConsume := by
  intro s i a hactive hclass hargs hignored
  obtain habsent | ⟨op, rfl⟩ := hignored
  · obtain ⟨f, hexec⟩ := exec_parameter hclass hargs s
    rw [hexec, interpret_gatedByPlayer a hactive rfl, if_neg (Nat.not_lt.mpr habsent)]
  · exact (exec_rsvdParam op a s).trans (interpret_players hactive rfl)

end Sys2Proof.Machine
end

section

namespace Sys2Proof.Machine

/-! ### A command that writes its target channel, under the gate of R170 -/

theorem interpret_modifyTargetChannel {s : State} {a : Args} {P : Player} {C : Channel} (f : Channel → Channel)
    (h : a.arg2.toNat < 16) (hactive : s.active = true) (hP : s.players[a.target.toNat]? = some P)
    (henabled : P.enabled = true) (hC : P.chans[a.arg2.toNat] = some C) :
    interpret false (gatedByChannel a (modifyChannel a.target a.arg2 f)) s = .next { s with
      players := s.players.set a.target.toNat { P with chans := P.chans.set a.arg2.toNat (some (f C)) }
      ring := clearOpcode s.ring s.rd
      rd := s.rd + 1
      rem := s.rem - 1
      active := decide (s.rem - 1 ≠ 0) } := by
  have hopen : channelGate s a = true := channelGate_iff.mpr ⟨P, C, h, hP, henabled, hC⟩
  have hplayer : Player.modifyChannel a.arg2 f P = { P with chans := P.chans.set a.arg2.toNat (some (f C)) } := by
    rw [Player.modifyChannel_of_lt _ _ _ h, hC, Option.map_some]
  refine interpret_players hactive ?_
  rw [gatedByChannel_of_open hopen, modifyChannel, modifyPlayer, modify_eq_set _ hP, hplayer]

/-! ### Rules of the channel commands (R171 to R179) -/

theorem exec_chVolscale (a : Args) (s : State) :
    exec (.chVolscale a) s =
      interpret false (gatedByChannel a (modifyChannel a.target a.arg2 (Channel.setVolumeScale a.payload))) s := rfl

theorem exec_chVolume (a : Args) (s : State) :
    exec (.chVolume a) s =
      interpret false (gatedByChannel a (modifyChannel a.target a.arg2 (Channel.setVolume a.payload))) s := rfl

theorem exec_chPan (a : Args) (s : State) :
    exec (.chPan a) s = interpret false (gatedByChannel a
      (modifyChannel a.target a.arg2 (Channel.setPan (asSignedByte a.payload)))) s := rfl

theorem exec_chFreqscale (a : Args) (s : State) :
    exec (.chFreqscale a) s =
      interpret false (gatedByChannel a (modifyChannel a.target a.arg2 (Channel.setFreqScale a.payload))) s := rfl

theorem exec_chReverb (a : Args) (s : State) :
    exec (.chReverb a) s = interpret false (gatedByChannel a
      (modifyChannel a.target a.arg2 (Channel.setReverbVol (asSignedByte a.payload)))) s := rfl

theorem exec_chScriptio (a : Args) (s : State) :
    exec (.chScriptio a) s = interpret false (gatedByChannel a
      (modifyChannel a.target a.arg2 (Channel.setScriptIO a.arg3 (asSignedByte a.payload)))) s := rfl

theorem exec_chStop (a : Args) (s : State) :
    exec (.chStop a) s = interpret false (gatedByChannel a
      (modifyChannel a.target a.arg2 (Channel.setStopFlag (asSignedByte a.payload)))) s := rfl

theorem exec_nop (a : Args) (s : State) : exec (.nop a) s = interpret false id s := rfl

theorem exec_rsvdChan07 (a : Args) (s : State) : exec (.rsvdChan07 a) s = interpret false id s := rfl

theorem exec_rsvdChan (op : Byte) (a : Args) (s : State) : exec (.rsvdChan op a) s = interpret false id s := rfl

/-! ### The script-I/O bytes (R176) -/

theorem Channel.setScriptIO_eq (i b : Byte) (C : Channel) :
    C.setScriptIO i b = { C with scriptIO := (C.setScriptIO i b).scriptIO } := by
  rw [Channel.setScriptIO]
  split <;> rfl

/-- An index of 8 or more is the index of no entry, so what is read back needs no bound on it (R176). -/
theorem Channel.setScriptIO_getElem (i b : Byte) (C : Channel) {k : Nat} (hk : k < 8) :
    (C.setScriptIO i b).scriptIO[k] = if k = i.toNat then b else C.scriptIO[k] := by
  by_cases hi : i.toNat < 8
  · rw [Channel.setScriptIO, dif_pos hi]
    simp only [Vector.getElem_set, eq_comm (a := k)]
  · have hne : k ≠ i.toNat := fun h => hi (h ▸ hk)
    rw [Channel.setScriptIO, dif_neg hi, if_neg hne]

/-- Settles O51: the rules of the three float commands with the gate open. -/
theorem channelFloatCommandsCopyAndMark : Obligations.ChannelFloatCommandsCopyAndMark :=
  fun s a _ _ h hactive hP henabled hC =>
    ⟨(exec_chVolscale a s).trans (interpret_modifyTargetChannel _ h hactive hP henabled hC),
      (exec_chVolume a s).trans (interpret_modifyTargetChannel _ h hactive hP henabled hC),
      (exec_chFreqscale a s).trans (interpret_modifyTargetChannel _ h hactive hP henabled hC)⟩

/-- Settles O52: the rules of the three byte commands with the gate open. -/
theorem channelByteCommandsStoreTheTopByte : Obligations.ChannelByteCommandsStoreTheTopByte :=
  fun s a _ _ h hactive hP henabled hC =>
    ⟨(exec_chPan a s).trans (interpret_modifyTargetChannel _ h hactive hP henabled hC),
      (exec_chReverb a s).trans (interpret_modifyTargetChannel _ h hactive hP henabled hC),
      (exec_chStop a s).trans (interpret_modifyTargetChannel _ h hactive hP henabled hC)⟩

/-- Settles O53: the array CH_SCRIPTIO leaves, read back at every index. -/
theorem scriptioWritesAnIndexBelowEight : Obligations.ScriptioWritesAnIndexBelowEight := by
  intro s a P C h hactive hP henabled hC
  refine ⟨(C.setScriptIO a.arg3 (asSignedByte a.payload)).scriptIO, ?_,
    fun _ hi => C.setScriptIO_getElem a.arg3 (asSignedByte a.payload) hi⟩
  rw [exec_chScriptio, interpret_modifyTargetChannel _ h hactive hP henabled hC, ← Channel.setScriptIO_eq]

/-- Settles O55: none of the three instructions has an effect. -/
theorem reservedChannelOpcodesOnlyConsume : Obligations.ReservedChannelOpcodesOnlyConsume := by
  intro s i op a hactive hi
  obtain rfl | rfl | rfl := hi
  · exact (exec_nop a s).trans (interpret_players hactive rfl)
  · exact (exec_rsvdChan07 a s).trans (interpret_players hactive rfl)
  · exact (exec_rsvdChan op a s).trans (interpret_players hactive rfl)

end Sys2Proof.Machine
end

section

namespace Sys2Proof.Machine

/-! ### Every instruction and every transition answers a next state (R200) -/

theorem interpret_answers (term : Bool) (effect : State → State) (s : State) :
    ∃ t, interpret term effect s = .next t := by
  cases hactive : s.active with
  | true => exact ⟨_, interpret_active hactive⟩
  | false => exact ⟨_, interpret_inactive hactive⟩

theorem exec_command_answers {i : Instr} (h : i.opClass ≠ .transaction) (s : State) :
    ∃ t, exec i s = .next t := by
  obtain ⟨effect, -, hexec⟩ := exec_command i h
  rw [hexec]
  exact interpret_answers _ effect s

/-- R103: a POLL leaves the state as it is in an active drain or with an empty mailbox, and else loads a range. -/
theorem exec_poll_answers (s : State) : ∃ t, exec .poll s = .next t := by
  cases hactive : s.active with
  | true => exact ⟨_, exec_poll_of_active hactive⟩
  | false =>
    cases hmbox : s.mbox with
    | nil => exact ⟨_, exec_poll_of_empty hmbox⟩
    | cons m ms => exact ⟨_, exec_poll_of_cons hactive hmbox⟩

theorem exec_answers (i : Instr) (s : State) : ∃ t, exec i s = .next t := by
  cases i with
  | enq r => exact ⟨_, exec_enq r s⟩
  | pub => exact ⟨_, exec_pub s⟩
  | poll => exact exec_poll_answers s
  | step => exact interpret_answers _ _ s
  | _ => exact exec_command_answers (by simp [Instr.opClass]) s

theorem perform_answers (e : Event) (s : State) : ∃ t, perform e s = .next t := by
  cases e with
  | enq r => exact exec_answers (.enq r) s
  | pub => exact exec_answers .pub s
  | poll => exact exec_answers .poll s
  | step => exact exec_answers (fetch s) s
  | ext ws => exact ⟨applyExt ws s, rfl⟩
  | reset => exact ⟨resetBlock s, rfl⟩

theorem step_answers (s : State) : ∃ t, step s = .next t := by
  cases hinputs : s.inputs with
  | nil => exact ⟨s, step_nil hinputs⟩
  | cons e rest =>
    rw [step_cons hinputs]
    exact perform_answers e { s with inputs := rest }

/-- Settles O27: every transition is an EXT, a RESET or an instruction, and a command's meaning is `interpret`,
which has no outcome but a next state. -/
theorem nothingFaults : Obligations.NothingFaults := ⟨step_answers, exec_answers⟩

end Sys2Proof.Machine
end

section

namespace Sys2Proof

/-! ### The opcode map: the defined opcodes and the four reserved ranges (R81, R84, R85) -/

/-- The opcodes with a row of their own in the table of R84. -/
def definedOpcodes : List Byte :=
  [0x00#8, 0x01#8, 0x02#8, 0x03#8, 0x04#8, 0x05#8, 0x06#8, 0x07#8, 0x08#8, 0x41#8, 0x46#8, 0x47#8, 0x48#8,
    0x81#8, 0x82#8, 0x83#8, 0x88#8, 0xF0#8, 0xF1#8, 0xF2#8, 0xF3#8]

/-- Past the rows of the defined opcodes only the class rows are left (R90). -/
theorem decodeFields_of_undefined {op : Byte} (h : op ∉ definedOpcodes) (a : Args) :
    decodeFields op a =
      if op &&& 0xF0#8 = 0xF0#8 then .rsvdGlobal op a
      else if op &&& 0x80#8 = 0x80#8 then .rsvdMgmt op a
      else if op &&& 0xC0#8 = 0x40#8 then .rsvdParam op a
      else .rsvdChan op a := by
  simp only [definedOpcodes, List.mem_cons, List.not_mem_nil, or_false, not_or] at h
  simp only [decodeFields, h, if_false]

theorem isReservedGlobal_iff : ∀ op : Byte,
    isReservedGlobal op = true ↔ op ∉ definedOpcodes ∧ op &&& 0xF0#8 = 0xF0#8 := by decide

theorem isReservedManagement_iff : ∀ op : Byte, isReservedManagement op = true ↔
    op ∉ definedOpcodes ∧ op &&& 0xF0#8 ≠ 0xF0#8 ∧ op &&& 0x80#8 = 0x80#8 := by decide

theorem isReservedParameter_iff : ∀ op : Byte, isReservedParameter op = true ↔
    op ∉ definedOpcodes ∧ op &&& 0xF0#8 ≠ 0xF0#8 ∧ op &&& 0x80#8 ≠ 0x80#8 ∧ op &&& 0xC0#8 = 0x40#8 := by decide

theorem isReservedChannel_iff : ∀ op : Byte, isReservedChannel op = true ↔
    op ∉ definedOpcodes ∧ op &&& 0xF0#8 ≠ 0xF0#8 ∧ op &&& 0x80#8 ≠ 0x80#8 ∧ op &&& 0xC0#8 ≠ 0x40#8 := by decide

theorem decodeFields_reservedGlobal {op : Byte} (h : isReservedGlobal op = true) (a : Args) :
    decodeFields op a = .rsvdGlobal op a := by
  obtain ⟨hundef, hglobal⟩ := (isReservedGlobal_iff op).mp h
  rw [decodeFields_of_undefined hundef, if_pos hglobal]

theorem decodeFields_reservedManagement {op : Byte} (h : isReservedManagement op = true) (a : Args) :
    decodeFields op a = .rsvdMgmt op a := by
  obtain ⟨hundef, hglobal, hmgmt⟩ := (isReservedManagement_iff op).mp h
  rw [decodeFields_of_undefined hundef, if_neg hglobal, if_pos hmgmt]

theorem decodeFields_reservedParameter {op : Byte} (h : isReservedParameter op = true) (a : Args) :
    decodeFields op a = .rsvdParam op a := by
  obtain ⟨hundef, hglobal, hmgmt, hparam⟩ := (isReservedParameter_iff op).mp h
  rw [decodeFields_of_undefined hundef, if_neg hglobal, if_neg hmgmt, if_pos hparam]

theorem decodeFields_reservedChannel {op : Byte} (h : isReservedChannel op = true) (a : Args) :
    decodeFields op a = .rsvdChan op a := by
  obtain ⟨hundef, hglobal, hmgmt, hparam⟩ := (isReservedChannel_iff op).mp h
  rw [decodeFields_of_undefined hundef, if_neg hglobal, if_neg hmgmt, if_neg hparam]

/-- An opcode is one of R84's, or in one of R85's four reserved ranges. -/
theorem opcode_cases (op : Byte) :
    op ∈ definedOpcodes ∨ isReservedGlobal op = true ∨ isReservedManagement op = true
      ∨ isReservedParameter op = true ∨ isReservedChannel op = true := by
  rw [isReservedGlobal_iff, isReservedManagement_iff, isReservedParameter_iff, isReservedChannel_iff]
  tauto

/-! ### Decoding and encoding undo each other -/

/-- A command's record decodes to it. -/
theorem decodeRec_of_encodeRec {i : Instr} {r : Rec} (hwf : i.wf = true) (h : encodeRec i = some r) :
    decodeRec r = i := by
  cases i with
  | rsvdGlobal op a =>
    obtain rfl := Option.some.inj h
    exact decodeFields_reservedGlobal hwf a
  | rsvdMgmt op a =>
    obtain rfl := Option.some.inj h
    exact decodeFields_reservedManagement hwf a
  | rsvdParam op a =>
    obtain rfl := Option.some.inj h
    exact decodeFields_reservedParameter hwf a
  | rsvdChan op a =>
    obtain rfl := Option.some.inj h
    exact decodeFields_reservedChannel hwf a
  | enq r => cases h
  | pub => cases h
  | poll => cases h
  | step => cases h
  | _ => cases h; rfl

/-- A record is that of the command it decodes to, and the command is well formed. -/
theorem decodeFields_spec (op : Byte) (a : Args) :
    (decodeFields op a).wf = true ∧ encodeRec (decodeFields op a) = some (a.withOpcode op) := by
  obtain h | h | h | h | h := opcode_cases op
  · simp only [definedOpcodes, List.mem_cons, List.not_mem_nil, or_false] at h
    obtain rfl | rfl | rfl | rfl | rfl | rfl | rfl | rfl | rfl | rfl | rfl | rfl | rfl | rfl | rfl | rfl | rfl
      | rfl | rfl | rfl | rfl := h <;> exact ⟨rfl, rfl⟩
  · rw [decodeFields_reservedGlobal h]
    exact ⟨h, rfl⟩
  · rw [decodeFields_reservedManagement h]
    exact ⟨h, rfl⟩
  · rw [decodeFields_reservedParameter h]
    exact ⟨h, rfl⟩
  · rw [decodeFields_reservedChannel h]
    exact ⟨h, rfl⟩

theorem decodeRec_wf (r : Rec) : (decodeRec r).wf = true := (decodeFields_spec r.opcode r.toArgs).1

theorem encodeRec_decodeRec (r : Rec) : encodeRec (decodeRec r) = some r := (decodeFields_spec r.opcode r.toArgs).2

/-- Only a transaction has no record (R90). -/
theorem encodeRec_of_command {i : Instr} (h : i.opClass ≠ .transaction) : ∃ r, encodeRec i = some r := by
  cases i with
  | enq r => exact absurd rfl h
  | pub => exact absurd rfl h
  | poll => exact absurd rfl h
  | step => exact absurd rfl h
  | _ => exact ⟨_, rfl⟩

theorem encode_of_encodeRec {i : Instr} {r : Rec} (h : encodeRec i = some r) : encode i = some r.toBytes := by
  rw [encode, h, Option.map_some]

/-- Eight bytes are the slot of the record they make (R62). -/
theorem toBytes_ofEight (b0 b1 b2 b3 b4 b5 b6 b7 : Byte) :
    (Rec.ofEight b0 b1 b2 b3 b4 b5 b6 b7).toBytes = [b0, b1, b2, b3, b4, b5, b6, b7] := by
  have h4 : (b4 ++ b5 ++ b6 ++ b7).extractLsb' 24 8 = b4 := by
    rw [BitVec.extractLsb'_append_eq_of_le (by decide), BitVec.extractLsb'_append_eq_of_le (by decide)]
    exact BitVec.extractLsb'_append_eq_left
  have h5 : (b4 ++ b5 ++ b6 ++ b7).extractLsb' 16 8 = b5 := by
    rw [BitVec.extractLsb'_append_eq_of_le (by decide), BitVec.extractLsb'_append_eq_of_le (by decide)]
    exact BitVec.extractLsb'_append_eq_right
  have h6 : (b4 ++ b5 ++ b6 ++ b7).extractLsb' 8 8 = b6 := by
    rw [BitVec.extractLsb'_append_eq_of_le (by decide)]
    exact BitVec.extractLsb'_append_eq_right
  have h7 : (b4 ++ b5 ++ b6 ++ b7).extractLsb' 0 8 = b7 := BitVec.extractLsb'_append_eq_right
  simp only [Rec.ofEight, Rec.toBytes, h4, h5, h6, h7]

/-- So every eight bytes are the slot of some record. -/
theorem exists_toBytes {bs : List Byte} (h : bs.length = 8) : ∃ r : Rec, r.toBytes = bs := by
  obtain ⟨b0, b1, b2, b3, b4, b5, b6, b7, rfl⟩ : ∃ b0 b1 b2 b3 b4 b5 b6 b7 : Byte,
      bs = [b0, b1, b2, b3, b4, b5, b6, b7] := by
    match bs, h with
    | [b0, b1, b2, b3, b4, b5, b6, b7], _ => exact ⟨b0, b1, b2, b3, b4, b5, b6, b7, rfl⟩
  exact ⟨_, toBytes_ofEight b0 b1 b2 b3 b4 b5 b6 b7⟩

/-- Settles O2: the command's bytes are those of its record, which decodes to the command. -/
theorem encodedCommandsDecodeBack : Obligations.EncodedCommandsDecodeBack := by
  intro i hwf hclass
  obtain ⟨r, hr⟩ := encodeRec_of_command hclass
  refine ⟨r.toBytes, encode_of_encodeRec hr, r.toBytes_length, fun rest => ?_⟩
  rw [decode_toBytes, decodeRec_of_encodeRec hwf hr]

/-- Settles O3: the bytes are those of a record, which is the record of what it decodes to. -/
theorem everyRecordDecodesAndEncodesBack : Obligations.EveryRecordDecodesAndEncodesBack := by
  intro bs rest hlength
  obtain ⟨r, rfl⟩ := exists_toBytes hlength
  exact ⟨decodeRec r, decode_toBytes r rest, decodeRec_wf r, Machine.decodeRec_opClass_ne_transaction r,
    encode_of_encodeRec (encodeRec_decodeRec r)⟩

/-! ### The classes (R81) -/

/-- The per-instruction laws together: the opcode a command encodes to lies in its class's range. -/
theorem inClass_of_encodeRec (i : Instr) : Laws.OpcodeClass.Statement i := by
  cases i with
  | nop a => exact Laws.OpcodeClass.nop a
  | chVolscale a => exact Laws.OpcodeClass.chVolscale a
  | chVolume a => exact Laws.OpcodeClass.chVolume a
  | chPan a => exact Laws.OpcodeClass.chPan a
  | chFreqscale a => exact Laws.OpcodeClass.chFreqscale a
  | chReverb a => exact Laws.OpcodeClass.chReverb a
  | chScriptio a => exact Laws.OpcodeClass.chScriptio a
  | rsvdChan07 a => exact Laws.OpcodeClass.rsvdChan07 a
  | chStop a => exact Laws.OpcodeClass.chStop a
  | plFadevolscale a => exact Laws.OpcodeClass.plFadevolscale a
  | plVariation a => exact Laws.OpcodeClass.plVariation a
  | plTempo a => exact Laws.OpcodeClass.plTempo a
  | plTranspose a => exact Laws.OpcodeClass.plTranspose a
  | plPreload a => exact Laws.OpcodeClass.plPreload a
  | plLoadfadein a => exact Laws.OpcodeClass.plLoadfadein a
  | plStopfade a => exact Laws.OpcodeClass.plStopfade a
  | plLoadfadeinB a => exact Laws.OpcodeClass.plLoadfadeinB a
  | gSoundmode a => exact Laws.OpcodeClass.gSoundmode a
  | gMuteall a => exact Laws.OpcodeClass.gMuteall a
  | gUnmuteall a => exact Laws.OpcodeClass.gUnmuteall a
  | gMisc a => exact Laws.OpcodeClass.gMisc a
  | rsvdGlobal op a => exact Laws.OpcodeClass.rsvdGlobal op a
  | rsvdMgmt op a => exact Laws.OpcodeClass.rsvdMgmt op a
  | rsvdParam op a => exact Laws.OpcodeClass.rsvdParam op a
  | rsvdChan op a => exact Laws.OpcodeClass.rsvdChan op a
  | enq r => exact Laws.OpcodeClass.enq r
  | pub => exact Laws.OpcodeClass.pub
  | poll => exact Laws.OpcodeClass.poll
  | step => exact Laws.OpcodeClass.step

/-- The ranges of the classes do not meet, so an opcode's class is that of the first test it passes. -/
theorem eq_of_inClass {c : OpClass} {op : Byte} (h : Laws.OpcodeClass.InClass c op) :
    c = if 0xF0#8 ≤ op then .global
      else if 0x80#8 ≤ op then .management
      else if 0x40#8 ≤ op then .parameter else .channel := by
  cases c with
  | global => exact (if_pos (show 0xF0#8 ≤ op from h)).symm
  | management =>
    obtain ⟨hlow, hhigh⟩ := h
    rw [if_neg (by bv_omega), if_pos hlow]
  | parameter =>
    obtain ⟨hlow, hhigh⟩ := h
    rw [if_neg (by bv_omega), if_neg (by bv_omega), if_pos hlow]
  | channel =>
    have hhigh : op ≤ 0x3F#8 := h
    rw [if_neg (by bv_omega), if_neg (by bv_omega), if_neg (by bv_omega)]
  | transaction => exact h.elim

theorem decodeRec_opClass (r : Rec) :
    (decodeRec r).opClass =
      if 0xF0#8 ≤ r.opcode then .global
      else if 0x80#8 ≤ r.opcode then .management
      else if 0x40#8 ≤ r.opcode then .parameter else .channel :=
  eq_of_inClass (inClass_of_encodeRec _ (decodeRec_wf r) r (encodeRec_decodeRec r))

/-- The class test of `apply` reads the top four bits (R81, R106). -/
theorem topNibble_iff : ∀ op : Byte, op.extractLsb' 4 4 = 0xF#4 ↔ 0xF0#8 ≤ op := by decide

theorem endsDrain_iff (r : Rec) : Machine.endsDrain r = true ↔ 0xF0#8 ≤ r.opcode :=
  decide_eq_true_iff.trans (topNibble_iff r.opcode)

/-- Settles O4: a record is that of the command it decodes to, whose opcode lies in the range of its class. -/
theorem classIsDecidedByTheFirstTest : Obligations.ClassIsDecidedByTheFirstTest :=
  fun r => ⟨decodeRec_opClass r, endsDrain_iff r⟩

/-! ### Words and assembler forms -/

/-- Settles O1: each word is read by computing. -/
theorem tableWordsDecodeToTheirInstructions : Obligations.TableWordsDecodeToTheirInstructions := by
  unfold Obligations.TableWordsDecodeToTheirInstructions
  decide

/-- Bits 31:24 of a byte operand's payload are the byte (R82). -/
theorem asSignedByte_byteLane (b : Byte) : Machine.asSignedByte (byteLane b) = b :=
  BitVec.extractLsb'_append_eq_left

theorem byteLane_low (b : Byte) : (byteLane b).extractLsb' 0 24 = 0 :=
  BitVec.extractLsb'_append_eq_right

theorem byteLane_eq_shiftLeft (b : Byte) : byteLane b = b.setWidth 32 <<< 24 := by
  have hlt : b.toNat < 2 ^ 8 := b.isLt
  refine BitVec.eq_of_toNat_eq ?_
  simp only [byteLane, BitVec.toNat_append, BitVec.toNat_shiftLeft, BitVec.toNat_setWidth, BitVec.toNat_ofNat,
    Nat.shiftLeft_eq]
  rw [Nat.zero_mod, Nat.or_zero]
  omega

/-- Settles O5: each form's record has the opcode of its name. -/
theorem assemblerFormsDecodeAsNamed : Obligations.AssemblerFormsDecodeAsNamed := fun _ _ _ _ b _ =>
  ⟨rfl, rfl, rfl, rfl, rfl, rfl, rfl, rfl, rfl, rfl, rfl, rfl, rfl, rfl, rfl, rfl, rfl, rfl, rfl, rfl, rfl,
    byteLane_eq_shiftLeft b, byteLane_low b, asSignedByte_byteLane b⟩

end Sys2Proof
end

section

namespace Sys2Proof.Machine

open Laws.OpcodeClass (InClass)

/-! ### `apply` within each class (R81, R105) -/

theorem applyRecord_global {r : Rec} (h : InClass .global r.opcode) : applyRecord r = applyGlobal r := by
  have hends : endsDrain r = true := (endsDrain_iff r).mpr h
  funext s
  rw [applyRecord, if_pos hends]

theorem endsDrain_eq_false {r : Rec} (h : r.opcode ≤ 0xEF#8) : endsDrain r = false := by
  rw [← Bool.not_eq_true, endsDrain_iff]
  bv_omega

theorem bit7_iff : ∀ op : Byte, op.getLsbD 7 = true ↔ 0x80#8 ≤ op := by decide

theorem bit6_iff : ∀ op : Byte, op ≤ 0x7F#8 → (op.getLsbD 6 = true ↔ 0x40#8 ≤ op) := by decide

theorem applyRecord_management {r : Rec} (h : InClass .management r.opcode) :
    applyRecord r = gatedByPlayer r.toArgs (applyManagement r) := by
  obtain ⟨hlow, hhigh⟩ := h
  have hbit7 : r.opcode.getLsbD 7 = true := (bit7_iff _).mpr hlow
  funext s
  simp only [applyRecord, endsDrain_eq_false hhigh, hbit7, if_true, if_false, Bool.false_eq_true]

theorem applyRecord_parameter {r : Rec} (h : InClass .parameter r.opcode) :
    applyRecord r = gatedByPlayer r.toArgs (applyParameter r) := by
  obtain ⟨hlow, hhigh⟩ := h
  have hends : endsDrain r = false := endsDrain_eq_false (by bv_omega)
  have hbit7 : ¬ r.opcode.getLsbD 7 = true := by rw [bit7_iff]; bv_omega
  have hbit6 : r.opcode.getLsbD 6 = true := (bit6_iff _ hhigh).mpr hlow
  funext s
  simp only [applyRecord, hends, hbit7, hbit6, if_true, if_false, Bool.false_eq_true]

theorem applyRecord_channel {r : Rec} (h : InClass .channel r.opcode) :
    applyRecord r = gatedByChannel r.toArgs (applyChannel r) := by
  have hhigh : r.opcode ≤ 0x3F#8 := h
  have hends : endsDrain r = false := endsDrain_eq_false (by bv_omega)
  have hbit7 : ¬ r.opcode.getLsbD 7 = true := by rw [bit7_iff]; bv_omega
  have hbit6 : ¬ r.opcode.getLsbD 6 = true := by rw [bit6_iff _ (by bv_omega)]; bv_omega
  funext s
  simp only [applyRecord, hends, hbit7, hbit6, if_false, Bool.false_eq_true]

/-! ### The exact opcodes within each class: a reserved one has no effect (R135, R148, R165, R177, R179) -/

theorem applyGlobal_reserved {op : Byte} (h : isReservedGlobal op = true) (a : Args) :
    applyGlobal (a.withOpcode op) = id := by
  obtain ⟨hundef, -⟩ := (isReservedGlobal_iff op).mp h
  simp only [definedOpcodes, List.mem_cons, List.not_mem_nil, or_false, not_or] at hundef
  funext s
  simp only [applyGlobal, Args.withOpcode_opcode, hundef, if_false, id]

theorem applyManagement_reserved {op : Byte} (h : isReservedManagement op = true) (a : Args) :
    applyManagement (a.withOpcode op) = id := by
  obtain ⟨hundef, -⟩ := (isReservedManagement_iff op).mp h
  simp only [definedOpcodes, List.mem_cons, List.not_mem_nil, or_false, not_or] at hundef
  funext s
  simp only [applyManagement, Args.withOpcode_opcode, hundef, or_self, if_false, id]

theorem applyParameter_reserved {op : Byte} (h : isReservedParameter op = true) (a : Args) :
    applyParameter (a.withOpcode op) = id := by
  obtain ⟨hundef, -⟩ := (isReservedParameter_iff op).mp h
  simp only [definedOpcodes, List.mem_cons, List.not_mem_nil, or_false, not_or] at hundef
  funext s
  simp only [applyParameter, Args.withOpcode_opcode, hundef, if_false, id]

theorem applyChannel_reserved {op : Byte} (h : isReservedChannel op = true) (a : Args) :
    applyChannel (a.withOpcode op) = id := by
  obtain ⟨hundef, -⟩ := (isReservedChannel_iff op).mp h
  simp only [definedOpcodes, List.mem_cons, List.not_mem_nil, or_false, not_or] at hundef
  funext s
  simp only [applyChannel, Args.withOpcode_opcode, hundef, if_false, id]

/-- A gate before nothing is nothing. -/
theorem gatedByChannel_id (a : Args) : gatedByChannel a id = id := funext fun _ => ite_self _

/-! ### The decoded instruction's meaning is `apply` of its record -/

theorem exec_global_eq {i : Instr} {r : Rec} (hclass : i.opClass = .global) (hwf : i.wf = true)
    (hr : encodeRec i = some r) (s : State) : exec i s = interpret true (applyGlobal r) s := by
  cases i with
  | gSoundmode a | gMuteall a | gUnmuteall a | gMisc a => cases hr; rfl
  | rsvdGlobal op a =>
    cases hr
    rw [exec_rsvdGlobal, applyGlobal_reserved hwf]
  | _ => cases hclass

theorem exec_management_eq {i : Instr} {r : Rec} (hclass : i.opClass = .management) (hwf : i.wf = true)
    (hr : encodeRec i = some r) (s : State) :
    exec i s = interpret false (gatedByPlayer r.toArgs (applyManagement r)) s := by
  cases i with
  | plPreload a | plLoadfadein a | plStopfade a | plLoadfadeinB a => cases hr; rfl
  | rsvdMgmt op a =>
    cases hr
    rw [exec_rsvdMgmt, applyManagement_reserved hwf, gatedByPlayer_id]
  | _ => cases hclass

theorem exec_parameter_eq {i : Instr} {r : Rec} (hclass : i.opClass = .parameter) (hwf : i.wf = true)
    (hr : encodeRec i = some r) (s : State) :
    exec i s = interpret false (gatedByPlayer r.toArgs (applyParameter r)) s := by
  cases i with
  | plFadevolscale a | plVariation a | plTempo a | plTranspose a => cases hr; rfl
  | rsvdParam op a =>
    cases hr
    rw [exec_rsvdParam, applyParameter_reserved hwf, gatedByPlayer_id]
  | _ => cases hclass

/-- Opcodes 0 and 7 are rows of their own without an operation. -/
theorem exec_channel_eq {i : Instr} {r : Rec} (hclass : i.opClass = .channel) (hwf : i.wf = true)
    (hr : encodeRec i = some r) (s : State) :
    exec i s = interpret false (gatedByChannel r.toArgs (applyChannel r)) s := by
  cases i with
  | chVolscale a | chVolume a | chPan a | chFreqscale a | chReverb a | chScriptio a | chStop a => cases hr; rfl
  | nop a =>
    cases hr
    rw [exec_nop, show applyChannel (a.withOpcode 0x00) = id from rfl, gatedByChannel_id]
  | rsvdChan07 a =>
    cases hr
    rw [exec_rsvdChan07, show applyChannel (a.withOpcode 0x07) = id from rfl, gatedByChannel_id]
  | rsvdChan op a =>
    cases hr
    rw [exec_rsvdChan, applyChannel_reserved hwf, gatedByChannel_id]
  | _ => cases hclass

theorem exec_eq_interpret_applyRecord {i : Instr} {r : Rec} (hwf : i.wf = true) (hr : encodeRec i = some r)
    (s : State) : exec i s = interpret (endsDrain r) (applyRecord r) s := by
  have hin : InClass i.opClass r.opcode := inClass_of_encodeRec i hwf r hr
  cases hclass : i.opClass with
  | global =>
    rw [hclass] at hin
    rw [exec_global_eq hclass hwf hr, applyRecord_global hin, (endsDrain_iff r).mpr hin]
  | management =>
    rw [hclass] at hin
    rw [exec_management_eq hclass hwf hr, applyRecord_management hin, endsDrain_eq_false hin.2]
  | parameter =>
    rw [hclass] at hin
    obtain ⟨hlow, hhigh⟩ := hin
    rw [exec_parameter_eq hclass hwf hr, applyRecord_parameter ⟨hlow, hhigh⟩, endsDrain_eq_false (by bv_omega)]
  | channel =>
    rw [hclass] at hin
    have hhigh : r.opcode ≤ 0x3F#8 := hin
    rw [exec_channel_eq hclass hwf hr, applyRecord_channel hin, endsDrain_eq_false (by bv_omega)]
  | transaction =>
    rw [hclass] at hin
    exact hin.elim

/-- R105: the instruction a record decodes to does what `apply` of the record does. -/
theorem exec_decodeRec (r : Rec) (s : State) :
    exec (decodeRec r) s = interpret (endsDrain r) (applyRecord r) s :=
  exec_eq_interpret_applyRecord (decodeRec_wf r) (encodeRec_decodeRec r) s

/-- Settles O10: both are `apply` of the fetched record. -/
theorem stepTransactionRunsTheFetchedCommand : Obligations.StepTransactionRunsTheFetchedCommand :=
  fun s => (exec_step s).trans (exec_decodeRec (ringRecord s.ring s.rd) s).symm

/-- Settles O15: `apply` is made of effects that keep the queue. -/
theorem applyWritesOnlySequencerRegisters : Obligations.ApplyWritesOnlySequencerRegisters :=
  fun r s => ⟨(keepsQueue_applyRecord r).eq s, (keepsQueue_applyRecord r).length_eq s⟩

end Sys2Proof.Machine
end

section

namespace Sys2Proof.Machine

/-! ### What each kind of transition can do (R100 to R104) -/

/-- A command of an active drain writes the sound mode, the players and the drain state, and consumes its slot. -/
theorem exec_command_of_active {i : Instr} {s : State} (hcommand : i.opClass ≠ .transaction)
    (hactive : s.active = true) :
    ∃ mode ps, ps.length = s.players.length ∧ exec i s = .next { s with
      soundMode := mode
      players := ps
      ring := clearOpcode s.ring s.rd
      rd := s.rd + 1
      rem := remAfterStep (decide (i.opClass = .global)) s.rem
      active := activeFor (remAfterStep (decide (i.opClass = .global)) s.rem) } := by
  obtain ⟨effect, hkeeps, hexec⟩ := exec_command i hcommand
  exact ⟨_, _, hkeeps.length_eq s, by rw [hexec, hkeeps.interpret_eq_of_active _ hactive]⟩

theorem exec_command_of_inactive {i : Instr} {s : State} (hcommand : i.opClass ≠ .transaction)
    (hidle : s.active = false) : exec i s = .next s := by
  obtain ⟨effect, -, hexec⟩ := exec_command i hcommand
  rw [hexec, interpret_inactive hidle]

/-- The same, read from the next state. -/
theorem exec_command_next {i : Instr} {s t : State} (hcommand : i.opClass ≠ .transaction)
    (ht : exec i s = .next t) :
    (s.active = false ∧ t = s) ∨
    (s.active = true ∧ ∃ mode ps, ps.length = s.players.length ∧ t = { s with
      soundMode := mode
      players := ps
      ring := clearOpcode s.ring s.rd
      rd := s.rd + 1
      rem := remAfterStep (decide (i.opClass = .global)) s.rem
      active := activeFor (remAfterStep (decide (i.opClass = .global)) s.rem) }) := by
  cases hactive : s.active with
  | false =>
    rw [exec_command_of_inactive hcommand hactive] at ht
    cases ht
    exact .inl ⟨rfl, rfl⟩
  | true =>
    obtain ⟨mode, ps, hlength, hexec⟩ := exec_command_of_active hcommand hactive
    rw [hexec] at ht
    cases ht
    exact .inr ⟨rfl, mode, ps, hlength, rfl⟩

theorem exec_poll_next {s t : State} (ht : exec .poll s = .next t) :
    t = s ∨ ∃ m ms, s.mbox = m :: ms ∧ t = { s with
      mbox := ms
      rd := m.start
      rem := m.count
      active := activeFor m.count } := by
  cases hactive : s.active with
  | true =>
    rw [exec_poll_of_active hactive] at ht
    cases ht
    exact .inl rfl
  | false =>
    cases hmbox : s.mbox with
    | nil =>
      rw [exec_poll_of_empty hmbox] at ht
      cases ht
      exact .inl rfl
    | cons m ms =>
      rw [exec_poll_of_cons hactive hmbox] at ht
      cases ht
      exact .inr ⟨m, ms, rfl, rfl⟩

theorem fetch_opClass_ne_transaction (s : State) : (fetch s).opClass ≠ .transaction :=
  decodeRec_opClass_ne_transaction _

/-- A whole EXT keeps everything but the players, and their number (R38). -/
theorem applyExt_frame (ws : List ExtWrite) (s : State) :
    applyExt ws s = { s with players := (applyExt ws s).players }
      ∧ (applyExt ws s).players.length = s.players.length := by
  induction ws generalizing s with
  | nil => exact ⟨rfl, rfl⟩
  | cons w ws ih =>
    obtain ⟨hwrite, hwriteLength⟩ := applyExtWrite_frame s w
    obtain ⟨hrest, hrestLength⟩ := ih (applyExtWrite s w)
    rw [applyExt_cons]
    refine ⟨?_, hrestLength.trans hwriteLength⟩
    rw [hrest, hwrite]

/-! ### The consumed slot (R104, R106) -/

theorem read_clearOpcode_same (m : Memory) (slot : Byte) : (clearOpcode m slot).read (8 * slot.toNat) = 0 :=
  Memory.read_write_same m (slotAddr slot) 0

theorem read_clearOpcode_other (m : Memory) (slot : Byte) (y : Nat) (h : y ≠ 8 * slot.toNat) :
    (clearOpcode m slot).read y = m.read y :=
  Memory.read_write_other m (slotAddr slot) y 0 h

/-- Settles O16: the early exit leaves no slot. -/
theorem globalCommandsEndTheDrain : Obligations.GlobalCommandsEndTheDrain := by
  intro i s hclass hactive
  have hcommand : i.opClass ≠ .transaction := by rw [hclass]; decide
  obtain ⟨mode, ps, -, hexec⟩ := exec_command_of_active hcommand hactive
  rw [hclass] at hexec
  exact ⟨_, hexec, rfl, rfl, rfl, read_clearOpcode_same s.ring s.rd, read_clearOpcode_other s.ring s.rd⟩

theorem activeFor_pred_iff (rem : BitVec 9) : activeFor (rem - 1) = true ↔ rem ≠ 1 := by
  rw [activeFor_eq_true]
  bv_omega

/-- Settles O17: without the early exit one slot fewer is left. -/
theorem otherCommandsLetTheDrainGoOn : Obligations.OtherCommandsLetTheDrainGoOn := by
  intro i s hglobal hcommand hactive
  obtain ⟨mode, ps, -, hexec⟩ := exec_command_of_active hcommand hactive
  rw [decide_eq_false hglobal, remAfterStep_false] at hexec
  exact ⟨_, hexec, rfl, activeFor_pred_iff s.rem, rfl, read_clearOpcode_same s.ring s.rd,
    read_clearOpcode_other s.ring s.rd⟩

/-- Settles O18: a command is `interpret` of its effect. -/
theorem commandsNeedAnActiveDrain : Obligations.CommandsNeedAnActiveDrain :=
  fun _ _ hcommand hidle => exec_command_of_inactive hcommand hidle

theorem exec_command_read {i : Instr} {s t : State} {y : Nat} (hcommand : i.opClass ≠ .transaction)
    (ht : exec i s = .next t) (hy : y ≠ 8 * s.rd.toNat) : t.ring.read y = s.ring.read y := by
  obtain ⟨-, rfl⟩ | ⟨-, mode, ps, -, rfl⟩ := exec_command_next hcommand ht
  · rfl
  · exact read_clearOpcode_other s.ring s.rd y hy

/-- Settles O19: ENQ stores eight bytes, a command (which a STEP is) stores one, PUB and POLL none. -/
theorem ringBytesOutsideTheStoredOnesStay : Obligations.RingBytesOutsideTheStoredOnesStay := by
  intro i s t y ht hy
  cases i with
  | enq r =>
    rw [exec_enq] at ht
    cases ht
    exact read_ringStore_outside s.ring s.wr r y hy
  | pub =>
    cases ht
    rfl
  | poll =>
    obtain rfl | ⟨m, ms, -, rfl⟩ := exec_poll_next ht <;> rfl
  | step =>
    rw [stepTransactionRunsTheFetchedCommand s] at ht
    exact exec_command_read (fetch_opClass_ne_transaction s) ht hy
  | _ => exact exec_command_read (by simp [Instr.opClass]) ht hy

/-! ### Who writes what (R37) -/

theorem exec_command_frame {i : Instr} {s t : State} (hcommand : i.opClass ≠ .transaction)
    (ht : exec i s = .next t) :
    t = { s with
      ring := t.ring
      active := t.active
      rd := t.rd
      rem := t.rem
      soundMode := t.soundMode
      players := t.players } := by
  obtain ⟨-, rfl⟩ | ⟨-, mode, ps, -, rfl⟩ := exec_command_next hcommand ht <;> rfl

/-- Settles O30: each agent's transition, read from its rule. -/
theorem agentsWriteOnlyTheirOwnState : Obligations.AgentsWriteOnlyTheirOwnState := by
  intro s t
  refine ⟨fun r ht => ?_, fun ht => ?_, fun ht => ?_, fun i hi ht => ?_, fun ws ht => ?_⟩
  · rw [exec_enq] at ht
    cases ht
    rfl
  · cases ht
    rfl
  · obtain rfl | ⟨m, ms, -, rfl⟩ := exec_poll_next ht <;> rfl
  · obtain hcommand | rfl := hi
    · exact exec_command_frame hcommand ht
    · rw [stepTransactionRunsTheFetchedCommand s] at ht
      exact exec_command_frame (fetch_opClass_ne_transaction s) ht
  · rw [ht]
    exact (applyExt_frame ws s).1

end Sys2Proof.Machine
end

section

namespace Sys2Proof.Machine

/-! ### Which transition a step is (R5, R6, R8) -/

theorem perform_step (s : State) : perform .step s = exec (fetch s) s := rfl

/-- Settles O7: the eight bytes at `8*rd` are the slot of the fetched record. -/
theorem stepRunsTheDecodedInstruction : Obligations.StepRunsTheDecodedInstruction := by
  intro s rest i hinputs _ hdecode
  have hfetch : decode (s.ring.readBytes (8 * s.rd.toNat) 8) = .ok (fetch s, []) :=
    decode_readBytes_slot s.ring s.rd
  rw [hfetch] at hdecode
  cases hdecode
  exact step_cons hinputs

/-- Settles O8: a step performs the event at the head of the schedule. -/
theorem otherEventsRunTheirTransitions : Obligations.OtherEventsRunTheirTransitions :=
  fun s rest => ⟨fun _ h => step_cons h, step_cons, step_cons,
    fun h hidle => (step_cons h).trans
      (exec_command_of_inactive (s := { s with inputs := rest }) (fetch_opClass_ne_transaction _) hidle),
    fun _ h => step_cons h, step_cons, step_nil⟩

/-- Settles O9: the record placed at `rd` is the one fetched there. -/
theorem placedRecordRunsNext : Obligations.PlacedRecordRunsNext := by
  intro s nbits w i hi
  have hfetch : fetch { s.withFetchWord nbits w with inputs := s.inputs } = i := by
    rw [decodeTableWord_some hi]
    exact congrArg decodeRec (ringRecord_ringStore_same s.ring s.rd (tableRecord nbits w))
  rw [step_cons (withFetchWord_inputs s nbits w), perform_step, hfetch]

/-! ### The invariants (R41) -/

/-- The schedule is no part of them. -/
theorem State.Inv.with_inputs {s : State} (h : s.Inv) (es : List Event) : { s with inputs := es }.Inv :=
  ⟨h.rem_le, h.active_iff, h.mbox_le, h.lap_eq, h.full_eq, h.ring_wf, h.players_range⟩

/-- After RESET only the number of players is open. -/
theorem inv_resetWith {players : Nat} (h : 1 ≤ players ∧ players ≤ 256) (ticks : Nat) (es : List Event) :
    (State.resetWith players ticks es).Inv where
  rem_le := show 0#9 ≤ 256#9 by decide
  active_iff := show false = true ↔ 0#9 ≠ 0 by decide
  mbox_le := Nat.zero_le 4
  lap_eq := fun _ => rfl
  full_eq := fun _ hm => absurd hm List.not_mem_nil
  ring_wf := rfl
  players_range := by
    rw [playerCount_eq]
    simpa only [State.resetWith, List.length_replicate] using h

/-- Settles O25: four players are between 1 and 256. -/
theorem resetMeetsTheInvariant : Obligations.ResetMeetsTheInvariant := inv_resetWith (by decide) _ _

theorem inv_enq {s : State} (h : s.Inv) (r : Rec) :
    { s with ring := ringStore s.ring s.wr r, wr := s.wr + 1, lap := lapAfterEnq (s.wr + 1) s.pub }.Inv :=
  { h with
    lap_eq := of_decide_eq_true
    ring_wf := wf_ringStore s.wr r h.ring_wf }

theorem send_length_le {mbox : List Msg} (h : mbox.length ≤ 4) (m : Msg) : (send mbox m).length ≤ 4 := by
  by_cases hroom : mbox.length < 4
  · rw [send_of_lt hroom, List.length_append, List.length_singleton]
    exact hroom
  · rwa [send_of_le (Nat.not_lt.mp hroom)]

theorem mem_send {mbox : List Msg} {m m' : Msg} (h : m' ∈ send mbox m) : m' ∈ mbox ∨ m' = m := by
  by_cases hroom : mbox.length < 4
  · rw [send_of_lt hroom] at h
    simpa only [List.mem_append, List.mem_singleton] using h
  · rw [send_of_le (Nat.not_lt.mp hroom)] at h
    exact .inl h

/-- A full message is sent only when `lap` has `wr` meet `pub`, item (d). -/
theorem inv_pub {s : State} (h : s.Inv) :
    { s with
      hwm := hwmAfterPub s.hwm (pendingDepth s.wr s.pub)
      mbox := send s.mbox (pubMsg s)
      pub := s.wr
      lap := false }.Inv :=
  { h with
    mbox_le := send_length_le h.mbox_le _
    lap_eq := fun hlap => absurd hlap Bool.false_ne_true
    full_eq := fun m hm hfull => by
      obtain hold | rfl := mem_send hm
      · exact h.full_eq m hold hfull
      · exact (h.lap_eq hfull).symm }

theorem inv_poll {s : State} (h : s.Inv) {m : Msg} {ms : List Msg} (hmbox : s.mbox = m :: ms) :
    { s with mbox := ms, rd := m.start, rem := m.count, active := activeFor m.count }.Inv :=
  have hlength : ms.length + 1 ≤ 4 := by
    have := h.mbox_le
    rwa [hmbox, List.length_cons] at this
  { h with
    rem_le := m.count_le
    active_iff := activeFor_eq_true
    mbox_le := Nat.le_of_succ_le hlength
    full_eq := fun m' hm' => h.full_eq m' (hmbox ▸ List.mem_cons_of_mem m hm') }

theorem remAfterStep_le {rem : BitVec 9} (term : Bool) (hle : rem ≤ 256#9) (hne : rem ≠ 0) :
    remAfterStep term rem ≤ 256#9 := by
  cases term with
  | true => exact Nat.zero_le _
  | false =>
    rw [remAfterStep_false]
    bv_omega

theorem inv_command {s : State} (h : s.Inv) (hactive : s.active = true) (term : Bool) (mode : Word)
    {ps : List Player} (hlength : ps.length = s.players.length) :
    { s with
      soundMode := mode
      players := ps
      ring := clearOpcode s.ring s.rd
      rd := s.rd + 1
      rem := remAfterStep term s.rem
      active := activeFor (remAfterStep term s.rem) }.Inv :=
  { h with
    rem_le := remAfterStep_le term h.rem_le (h.active_iff.mp hactive)
    active_iff := activeFor_eq_true
    ring_wf := wf_clearOpcode s.rd h.ring_wf
    players_range := by
      rw [playerCount_eq, hlength]
      exact h.players_range }

theorem inv_applyExt {s : State} (h : s.Inv) (ws : List ExtWrite) : (applyExt ws s).Inv := by
  obtain ⟨hframe, hlength⟩ := applyExt_frame ws s
  rw [hframe]
  exact { h with
    players_range := by
      rw [playerCount_eq, hlength]
      exact h.players_range }

theorem inv_perform {s t : State} {e : Event} (h : s.Inv) (ht : perform e s = .next t) : t.Inv := by
  cases e with
  | enq r =>
    cases ht
    exact inv_enq h r
  | pub =>
    cases ht
    exact inv_pub h
  | poll =>
    obtain rfl | ⟨m, ms, hmbox, rfl⟩ := exec_poll_next ht
    · exact h
    · exact inv_poll h hmbox
  | step =>
    obtain ⟨-, rfl⟩ | ⟨hactive, mode, ps, hlength, rfl⟩ :=
      exec_command_next (fetch_opClass_ne_transaction s) ht
    · exact h
    · exact inv_command h hactive _ mode hlength
  | ext ws =>
    cases ht
    exact inv_applyExt h ws
  | reset =>
    cases ht
    exact inv_resetWith h.players_range _ _

/-- Settles O26: an empty schedule leaves the state, and each event's transition keeps the invariants. -/
theorem everyTransitionKeepsTheInvariant : Obligations.EveryTransitionKeepsTheInvariant := by
  intro s t h ht
  cases hinputs : s.inputs with
  | nil =>
    rw [step_nil hinputs] at ht
    cases ht
    exact h
  | cons e rest =>
    rw [step_cons hinputs] at ht
    exact inv_perform (h.with_inputs rest) ht

/-! ### The parameters (R233 (c)) -/

theorem perform_parameters {s t : State} {e : Event} (ht : perform e s = .next t) :
    t.players.length = s.players.length ∧ t.ticksPerBeat = s.ticksPerBeat := by
  cases e with
  | enq r =>
    cases ht
    exact ⟨rfl, rfl⟩
  | pub =>
    cases ht
    exact ⟨rfl, rfl⟩
  | poll => obtain rfl | ⟨m, ms, -, rfl⟩ := exec_poll_next ht <;> exact ⟨rfl, rfl⟩
  | step =>
    obtain ⟨-, rfl⟩ | ⟨-, mode, ps, hlength, rfl⟩ := exec_command_next (fetch_opClass_ne_transaction s) ht
    · exact ⟨rfl, rfl⟩
    · exact ⟨hlength, rfl⟩
  | ext ws =>
    cases ht
    obtain ⟨hframe, hlength⟩ := applyExt_frame ws s
    exact ⟨hlength, by rw [hframe]⟩
  | reset =>
    cases ht
    exact ⟨List.length_replicate, rfl⟩

/-- Settles O28: no event changes a parameter. -/
theorem parametersNeverChange : Obligations.ParametersNeverChange := by
  intro s t ht
  cases hinputs : s.inputs with
  | nil =>
    rw [step_nil hinputs] at ht
    cases ht
    exact ⟨rfl, rfl⟩
  | cons e rest =>
    rw [step_cons hinputs] at ht
    exact perform_parameters (s := { s with inputs := rest }) ht

/-! ### RESET (R36, R230) -/

theorem ringRecord_nil (slot : Byte) : ringRecord [] slot = Args.withOpcode ⟨0, 0, 0, 0⟩ 0 := by
  simp [ringRecord, Memory.read, Rec.ofEight, Args.withOpcode]

theorem reset_variation (i : Byte) : Player.reset.variation[i.toNat] = 0 :=
  Vector.getElem_replicate _

theorem reset_chanPresent (c : Byte) : Player.reset.chanPresent c = false := by
  simp [Player.chanPresent, Player.chan?, Player.reset]

/-- Settles O29: RESET's state is the constant table, and so is the start's. -/
theorem resetSetsEveryItem : Obligations.ResetSetsEveryItem := by
  refine ⟨?_, rfl, rfl, rfl, rfl, rfl, rfl, rfl, rfl, rfl, rfl, rfl⟩
  rintro s t rfl
  refine ⟨ringRecord_nil, rfl, rfl, rfl, rfl, rfl, rfl, rfl, rfl, rfl, List.length_replicate, fun P hP => ?_⟩
  rw [resetBlock_players] at hP
  obtain rfl := List.eq_of_mem_replicate hP
  exact ⟨rfl, rfl, rfl, rfl, rfl, rfl, rfl, rfl, rfl, rfl, reset_variation, reset_chanPresent⟩

/-! ### The high-water mark (R25, R111) -/

theorem perform_hwm {s t : State} {e : Event} (hpub : e ≠ .pub) (hreset : e ≠ .reset)
    (ht : perform e s = .next t) : t.hwm = s.hwm := by
  cases e with
  | enq r =>
    cases ht
    rfl
  | pub => exact absurd rfl hpub
  | poll => obtain rfl | ⟨m, ms, -, rfl⟩ := exec_poll_next ht <;> rfl
  | step => rw [exec_command_frame (fetch_opClass_ne_transaction s) ht]
  | ext ws =>
    cases ht
    rw [(applyExt_frame ws s).1]
  | reset => exact absurd rfl hreset

/-- Settles O31: PUB takes the larger of the mark and the depth, and no other event writes the mark. -/
theorem highWaterMarkNeverDecreases : Obligations.HighWaterMarkNeverDecreases := by
  intro s t e rest hinputs hreset ht
  rw [step_cons hinputs] at ht
  by_cases hpub : e = .pub
  · subst hpub
    cases ht
    obtain ⟨hkeep, hcover⟩ := le_hwmAfterPub s.hwm (pendingDepth s.wr s.pub)
    exact ⟨hkeep, fun h => absurd rfl h, fun _ => hcover⟩
  · have hsame : t.hwm = s.hwm := perform_hwm (s := { s with inputs := rest }) hpub hreset ht
    exact ⟨BitVec.le_of_eq hsame.symm, fun _ => hsame, fun h => absurd h hpub⟩

/-! ### The read cursor (R27, R112) -/

theorem perform_rd {s t : State} {e : Event} (hstep : e ≠ .step) (hpoll : e ≠ .poll) (hreset : e ≠ .reset)
    (ht : perform e s = .next t) : t.rd = s.rd := by
  cases e with
  | enq r =>
    cases ht
    rfl
  | pub =>
    cases ht
    rfl
  | poll => exact absurd rfl hpoll
  | step => exact absurd rfl hstep
  | ext ws =>
    cases ht
    rw [(applyExt_frame ws s).1]
  | reset => exact absurd rfl hreset

theorem exec_fetch_rd {s t : State} (ht : exec (fetch s) s = .next t) :
    t.rd = if s.active = true then s.rd + 1 else s.rd := by
  obtain ⟨hidle, rfl⟩ | ⟨hactive, mode, ps, -, rfl⟩ := exec_command_next (fetch_opClass_ne_transaction s) ht
  · rw [hidle]
    rfl
  · rw [if_pos hactive]

theorem exec_poll_rd {s t : State} (ht : exec .poll s = .next t) :
    t.rd = s.rd ∨ ∃ m, s.mbox.head? = some m ∧ t.rd = m.start ∧ t.mbox = s.mbox.tail := by
  obtain rfl | ⟨m, ms, hmbox, rfl⟩ := exec_poll_next ht
  · exact .inl rfl
  · exact .inr ⟨m, by rw [hmbox, List.head?_cons], rfl, by rw [hmbox, List.tail_cons]⟩

/-- Settles O32: the rule of `rd` for STEP, for POLL and for every other event. -/
theorem onlyPollLoadsTheReadCursor : Obligations.OnlyPollLoadsTheReadCursor := by
  intro s t e rest hinputs hreset ht
  rw [step_cons hinputs] at ht
  refine ⟨?_, ?_, ?_, fun hstep hpoll =>
    perform_rd (s := { s with inputs := rest }) hstep hpoll hreset ht⟩
  · rintro rfl hactive
    rw [exec_fetch_rd ht, if_pos hactive]
  · rintro rfl hidle
    rw [exec_fetch_rd ht, if_neg (Bool.eq_false_iff.mp hidle)]
  · rintro rfl
    exact exec_poll_rd (s := { s with inputs := rest }) ht

end Sys2Proof.Machine
end

section

namespace Sys2Proof.Machine

/-! ### A write to one player leaves the others -/

theorem modify_frame {ps qs : List Player} {k : Nat} {f : Player → Player} (h : qs = ps.modify k f) :
    (∀ p, p ≠ k → qs[p]? = ps[p]?) ∧ ∀ P Q, ps[k]? = some P → qs[k]? = some Q → Q = f P := by
  subst h
  refine ⟨fun p hp => getElem?_modify_other f hp, fun P Q hP hQ => ?_⟩
  rw [List.getElem?_modify_eq, hP] at hQ
  exact (Option.some.inj hQ).symm

theorem interpret_soundMode_players {effect : State → State} {s t : State}
    (ht : interpret false effect s = .next t) :
    t = s ∨ (t.soundMode = (effect s).soundMode ∧ t.players = (effect s).players) := by
  obtain ⟨-, rfl⟩ | ⟨-, rfl⟩ := interpret_cases ht
  · exact .inr ⟨rfl, rfl⟩
  · exact .inl rfl

/-! ### The frame of the player-management class (R140 to R149) -/

/-- The write changes no field beside the five that the class's own rules name. -/
def WritesOnlyFade (f : Player → Player) : Prop :=
  ∀ P, f P = { P with
    enabled := (f P).enabled
    state := (f P).state
    fadeVolume := (f P).fadeVolume
    fadeVelocity := (f P).fadeVelocity
    fadeRemaining := (f P).fadeRemaining }

theorem writesOnlyFade_id : WritesOnlyFade id := fun _ => rfl

theorem writesOnlyFade_fadeIn (d : Word) : WritesOnlyFade (Player.fadeIn d) := by
  intro P
  by_cases h : d = 0
  · rw [h, Player.fadeIn_zero]
  · rw [Player.fadeIn_of_ne_zero h]

theorem writesOnlyFade_fadeToZero (d : Word) : WritesOnlyFade (Player.fadeToZero d) := fun _ => rfl

theorem writesOnlyFade_stop : WritesOnlyFade fun P => { P with enabled := false, state := .stopped } := fun _ => rfl

/-- Where the target exists the class's own write is on top of what the hook left, and else nothing is written. -/
theorem interpret_hooked {effect : State → State} {s t : State} {a : Args} {base hooked : List Player}
    {f : Player → Player} (hf : WritesOnlyFade f) (hactive : s.active = true)
    (heffect : effect s = { s with players := hooked.modify a.target.toNat f })
    (hbase : base = if a.target.toNat < s.players.length then hooked else s.players)
    (ht : interpret false (gatedByPlayer a effect) s = .next t) :
    t.soundMode = s.soundMode ∧ ∃ g, WritesOnlyFade g ∧ t.players = base.modify a.target.toNat g := by
  rw [interpret_gatedByPlayer a hactive heffect] at ht
  cases ht
  refine ⟨rfl, ?_⟩
  by_cases hexists : a.target.toNat < s.players.length
  · exact ⟨f, hf, by rw [hbase, if_pos hexists, if_pos hexists]⟩
  · exact ⟨id, writesOnlyFade_id, by rw [hbase, if_neg hexists, if_neg hexists, List.modify_id]⟩

/-- Settles O44: for each command of the class, its hook's answer and its own write. -/
theorem managementCommandsFrame : Obligations.ManagementCommandsFrame := by
  intro s t i a base hclass hargs hactive ht hbase
  have hwritten : t.soundMode = s.soundMode ∧
      ∃ g, WritesOnlyFade g ∧ t.players = base.modify a.target.toNat g := by
    cases i with
    | plPreload b =>
      obtain rfl := Option.some.inj hargs
      exact interpret_hooked writesOnlyFade_id hactive (by rw [List.modify_id]; rfl) hbase ht
    | plLoadfadein b =>
      obtain rfl := Option.some.inj hargs
      exact interpret_hooked (writesOnlyFade_fadeIn _) hactive rfl hbase ht
    | plLoadfadeinB b =>
      obtain rfl := Option.some.inj hargs
      exact interpret_hooked (writesOnlyFade_fadeIn _) hactive rfl hbase ht
    | plStopfade b =>
      obtain rfl := Option.some.inj hargs
      by_cases hzero : b.payload = 0
      · simp only [if_pos hzero] at hbase
        exact interpret_hooked writesOnlyFade_stop hactive (stopFadeEffect_of_zero hzero s) hbase ht
      · simp only [if_neg hzero] at hbase
        exact interpret_hooked (writesOnlyFade_fadeToZero _) hactive (stopFadeEffect_of_ne_zero hzero s) hbase ht
    | rsvdMgmt op b =>
      obtain rfl := Option.some.inj hargs
      rw [exec_rsvdMgmt, ← gatedByPlayer_id b] at ht
      exact interpret_hooked writesOnlyFade_id hactive (by rw [List.modify_id, id]) hbase ht
    | _ => cases hclass
  obtain ⟨hmode, g, hg, hplayers⟩ := hwritten
  obtain ⟨hother, htarget⟩ := modify_frame hplayers
  refine ⟨hmode, hother, fun P Q hP hQ => ?_⟩
  obtain rfl := htarget P Q hP hQ
  exact hg P

/-! ### The frame of the player-parameter class (R160 to R165) -/

/-- The write changes no field beside the class's parameters, and clears no dirty mark. -/
def WritesOnlyParameters (f : Player → Player) : Prop :=
  ∀ P, f P = { P with
      fadeVolumeScale := (f P).fadeVolumeScale
      volDirty := (f P).volDirty
      tempo := (f P).tempo
      transposition := (f P).transposition
      variation := (f P).variation }
    ∧ (P.volDirty = true → (f P).volDirty = true)

theorem writesOnlyParameters_id : WritesOnlyParameters id := fun _ => ⟨rfl, id⟩

theorem exec_parameter_write {i : Instr} {a : Args} (hclass : i.opClass = .parameter) (hargs : i.args? = some a)
    (s : State) :
    ∃ f, exec i s = interpret false (gatedByPlayer a (modifyPlayer a.target f)) s ∧ WritesOnlyParameters f := by
  cases i with
  | plFadevolscale b =>
    obtain rfl := Option.some.inj hargs
    exact ⟨_, exec_plFadevolscale b s, fun _ => ⟨rfl, fun _ => rfl⟩⟩
  | plVariation b =>
    obtain rfl := Option.some.inj hargs
    exact ⟨_, exec_plVariation b s, fun _ => ⟨rfl, id⟩⟩
  | plTempo b =>
    obtain rfl := Option.some.inj hargs
    exact ⟨_, exec_plTempo b s, fun _ => ⟨rfl, id⟩⟩
  | plTranspose b =>
    obtain rfl := Option.some.inj hargs
    exact ⟨_, exec_plTranspose b s, fun _ => ⟨rfl, id⟩⟩
  | rsvdParam op b =>
    exact ⟨id, by rw [exec_rsvdParam, modifyPlayer_id, gatedByPlayer_id], writesOnlyParameters_id⟩
  | _ => cases hclass

theorem exec_parameter_next {s t : State} {i : Instr} {a : Args} (hclass : i.opClass = .parameter)
    (hargs : i.args? = some a) (ht : exec i s = .next t) :
    t.soundMode = s.soundMode ∧ ∃ f, WritesOnlyParameters f ∧ t.players = s.players.modify a.target.toNat f := by
  obtain ⟨f, hexec, hf⟩ := exec_parameter_write hclass hargs s
  rw [hexec] at ht
  have hunwritten : s.players = s.players.modify a.target.toNat id := (List.modify_id _ _).symm
  obtain rfl | ⟨hmode, hplayers⟩ := interpret_soundMode_players ht
  · exact ⟨rfl, id, writesOnlyParameters_id, hunwritten⟩
  · by_cases hexists : a.target.toNat < s.players.length
    · rw [gatedByPlayer_of_lt hexists] at hmode hplayers
      exact ⟨hmode, f, hf, hplayers⟩
    · rw [gatedByPlayer_of_le (Nat.not_lt.mp hexists)] at hmode hplayers
      exact ⟨hmode, id, writesOnlyParameters_id, hplayers.trans hunwritten⟩

/-- Settles O50: a command of the class is one write to its target. -/
theorem parameterCommandsFrame : Obligations.ParameterCommandsFrame := by
  intro s t i a hclass hargs ht
  obtain ⟨hmode, f, hf, hplayers⟩ := exec_parameter_next hclass hargs ht
  obtain ⟨hother, htarget⟩ := modify_frame hplayers
  refine ⟨hmode, hother, fun P Q hP hQ => ?_⟩
  obtain rfl := htarget P Q hP hQ
  exact hf P

/-! ### The frame of the channel class (R170 to R180) -/

/-- The write clears no dirty bit. -/
def KeepsDirty (f : Channel → Channel) : Prop :=
  ∀ C, (C.changes.volume = true → (f C).changes.volume = true)
    ∧ (C.changes.pan = true → (f C).changes.pan = true)
    ∧ (C.changes.freqScale = true → (f C).changes.freqScale = true)

theorem keepsDirty_of_changes {f : Channel → Channel} (h : ∀ C, (f C).changes = C.changes) : KeepsDirty f := by
  intro C
  rw [h]
  exact ⟨id, id, id⟩

theorem keepsDirty_id : KeepsDirty id := keepsDirty_of_changes fun _ => rfl

theorem keepsDirty_setScriptIO (i b : Byte) : KeepsDirty (Channel.setScriptIO i b) :=
  keepsDirty_of_changes fun C => by rw [Channel.setScriptIO_eq]

theorem Player.modifyChannel_id (c : Byte) : Player.modifyChannel c id = id := by
  funext P
  by_cases h : c.toNat < 16
  · rw [Player.modifyChannel_of_lt _ _ _ h, Option.map_id, id, Vector.set_getElem_self]
    rfl
  · rw [Player.modifyChannel, dif_neg h, id]

theorem modifyChannel_id (p c : Byte) : modifyChannel p c id = id := by
  funext s
  rw [modifyChannel, Player.modifyChannel_id, modifyPlayer_id]

/-- R170: what the class's commands have in common; the write of one without an operation is the identity. -/
theorem exec_channel_write {i : Instr} {a : Args} (hclass : i.opClass = .channel) (hargs : i.args? = some a)
    (s : State) :
    ∃ f, exec i s = interpret false (gatedByChannel a (modifyChannel a.target a.arg2 f)) s ∧ KeepsDirty f := by
  have hnothing : gatedByChannel a (modifyChannel a.target a.arg2 id) = id := by
    rw [modifyChannel_id, gatedByChannel_id]
  cases i with
  | chVolscale b =>
    obtain rfl := Option.some.inj hargs
    exact ⟨_, exec_chVolscale b s, fun _ => ⟨fun _ => rfl, id, id⟩⟩
  | chVolume b =>
    obtain rfl := Option.some.inj hargs
    exact ⟨_, exec_chVolume b s, fun _ => ⟨fun _ => rfl, id, id⟩⟩
  | chPan b =>
    obtain rfl := Option.some.inj hargs
    exact ⟨_, exec_chPan b s, fun _ => ⟨id, fun _ => rfl, id⟩⟩
  | chFreqscale b =>
    obtain rfl := Option.some.inj hargs
    exact ⟨_, exec_chFreqscale b s, fun _ => ⟨id, id, fun _ => rfl⟩⟩
  | chReverb b =>
    obtain rfl := Option.some.inj hargs
    exact ⟨_, exec_chReverb b s, keepsDirty_of_changes fun _ => rfl⟩
  | chScriptio b =>
    obtain rfl := Option.some.inj hargs
    exact ⟨_, exec_chScriptio b s, keepsDirty_setScriptIO _ _⟩
  | chStop b =>
    obtain rfl := Option.some.inj hargs
    exact ⟨_, exec_chStop b s, keepsDirty_of_changes fun _ => rfl⟩
  | nop b => exact ⟨id, by rw [exec_nop, hnothing], keepsDirty_id⟩
  | rsvdChan07 b => exact ⟨id, by rw [exec_rsvdChan07, hnothing], keepsDirty_id⟩
  | rsvdChan op b => exact ⟨id, by rw [exec_rsvdChan, hnothing], keepsDirty_id⟩
  | _ => cases hclass

theorem exec_channel_next {s t : State} {i : Instr} {a : Args} (hclass : i.opClass = .channel)
    (hargs : i.args? = some a) (ht : exec i s = .next t) :
    t.soundMode = s.soundMode ∧
      ∃ f, KeepsDirty f ∧ t.players = s.players.modify a.target.toNat (Player.modifyChannel a.arg2 f) := by
  obtain ⟨f, hexec, hf⟩ := exec_channel_write hclass hargs s
  rw [hexec] at ht
  have hunwritten : s.players = s.players.modify a.target.toNat (Player.modifyChannel a.arg2 id) := by
    rw [Player.modifyChannel_id, List.modify_id]
  obtain rfl | ⟨hmode, hplayers⟩ := interpret_soundMode_players ht
  · exact ⟨rfl, id, keepsDirty_id, hunwritten⟩
  · cases hgate : channelGate s a with
    | true =>
      rw [gatedByChannel_of_open hgate] at hmode hplayers
      exact ⟨hmode, f, hf, hplayers⟩
    | false =>
      rw [gatedByChannel_of_shut hgate] at hmode hplayers
      exact ⟨hmode, id, keepsDirty_id, hplayers.trans hunwritten⟩

theorem Player.chanPresent_modifyChannel (c d : Byte) (f : Channel → Channel) (P : Player) :
    (Player.modifyChannel c f P).chanPresent d = P.chanPresent d := by
  rw [Player.chanPresent, Player.chanPresent, Player.chan?_modifyChannel]
  by_cases hd : d = c
  · rw [if_pos hd, Option.isSome_map, hd]
  · rw [if_neg hd]

theorem Player.changes_modifyChannel {c d : Byte} {f : Channel → Channel} {P : Player} {C D : Channel}
    (hf : KeepsDirty f) (hC : P.chan? d = some C) (hD : (Player.modifyChannel c f P).chan? d = some D) :
    (C.changes.volume = true → D.changes.volume = true)
      ∧ (C.changes.pan = true → D.changes.pan = true)
      ∧ (C.changes.freqScale = true → D.changes.freqScale = true) := by
  rw [Player.chan?_modifyChannel] at hD
  by_cases hd : d = c
  · rw [if_pos hd, ← hd, hC] at hD
    obtain rfl := Option.some.inj hD
    exact hf C
  · rw [if_neg hd, hC] at hD
    obtain rfl := Option.some.inj hD
    exact ⟨id, id, id⟩

/-- Settles O56: a command of the class is one write to its target channel. -/
theorem channelCommandsFrame : Obligations.ChannelCommandsFrame := by
  intro s t i a hclass hargs ht
  obtain ⟨hmode, f, hf, hplayers⟩ := exec_channel_next hclass hargs ht
  obtain ⟨hother, htarget⟩ := modify_frame hplayers
  refine ⟨hmode, hother, fun P Q hP hQ => ?_⟩
  obtain rfl := htarget P Q hP hQ
  refine ⟨P.modifyChannel_eq a.arg2 f, fun c hc => ?_, fun c => P.chanPresent_modifyChannel a.arg2 c f,
    fun c C D hC hD => Player.changes_modifyChannel hf hC hD⟩
  rw [Player.chan?_modifyChannel, if_neg hc]

/-- R170: any one condition that fails shuts the gate. -/
theorem channelGate_shut {s : State} {a : Args}
    (h : s.players.length ≤ a.target.toNat
      ∨ (∃ P, s.players[a.target.toNat]? = some P ∧ P.enabled = false)
      ∨ 16 ≤ a.arg2.toNat
      ∨ ∃ (P : Player) (h : a.arg2.toNat < 16),
          s.players[a.target.toNat]? = some P ∧ P.chans[a.arg2.toNat] = none) :
    channelGate s a = false := by
  rw [← Bool.not_eq_true, channelGate_iff]
  rintro ⟨P, C, hlt, hP, henabled, hC⟩
  obtain habsent | ⟨P', hP', hdisabled⟩ | hindex | ⟨P', _, hP', hnone⟩ := h
  · exact Nat.not_le.mpr (List.getElem?_eq_some_iff.mp hP).1 habsent
  · obtain rfl := Option.some.inj (hP.symm.trans hP')
    exact absurd (henabled.symm.trans hdisabled) (by decide)
  · exact Nat.not_le.mpr hlt hindex
  · obtain rfl := Option.some.inj (hP.symm.trans hP')
    exact Option.some_ne_none C (hC.symm.trans hnone)

/-- Settles O54: behind a shut gate nothing is left of a command but its end. -/
theorem channelGateIgnoresTheCommand : Obligations.ChannelGateIgnoresTheCommand := by
  intro s i a hactive hclass hargs hfails
  obtain ⟨f, hexec, -⟩ := exec_channel_write hclass hargs s
  rw [hexec, interpret_players hactive (gatedByChannel_of_shut (channelGate_shut hfails))]

/-! ### The external writer (R38) -/

/-- What a channel write of EXT does to the player it names. -/
def Player.setChannel (c : Byte) (w : Option Channel) (P : Player) : Player :=
  if h : c.toNat < 16 then { P with chans := P.chans.set c.toNat w } else P

theorem applyExtWrite_channel (s : State) (p c : Byte) (w : Option Channel) :
    applyExtWrite s (.channel p c w) = modifyPlayer p (Player.setChannel c w) s := rfl

theorem Player.setChannel_of_le {c : Byte} (h : 16 ≤ c.toNat) (w : Option Channel) : Player.setChannel c w = id :=
  funext fun _ => dif_neg (Nat.not_lt.mpr h)

theorem Player.setChannel_eq (c : Byte) (w : Option Channel) (P : Player) :
    P.setChannel c w = { P with chans := (P.setChannel c w).chans } := by
  rw [Player.setChannel]
  split <;> rfl

theorem Player.chan?_setChannel_same {c : Byte} (h : c.toNat < 16) (w : Option Channel) (P : Player) :
    (P.setChannel c w).chan? c = w := by
  simp [Player.setChannel, Player.chan?, h]

theorem Player.chan?_setChannel_other {c d : Byte} (hd : d ≠ c) (w : Option Channel) (P : Player) :
    (P.setChannel c w).chan? d = P.chan? d := by
  have hne : c.toNat ≠ d.toNat := fun h => hd (BitVec.eq_of_toNat_eq h.symm)
  by_cases h : c.toNat < 16
  · simp [Player.setChannel, Player.chan?, h, hne]
  · rw [Player.setChannel_of_le (Nat.not_lt.mp h), id]

theorem modifyPlayer_of_le {s : State} {p : Byte} (h : s.players.length ≤ p.toNat) (f : Player → Player) :
    modifyPlayer p f s = s := by
  rw [modifyPlayer, List.modify_eq_self h]

theorem applyExt_append (ws ws' : List ExtWrite) (s : State) :
    applyExt (ws ++ ws') s = applyExt ws' (applyExt ws s) := List.foldl_append

/-- Settles O57: a player write replaces, a channel write is `setChannel`, and EXT is a fold. -/
theorem extWritesItsTargetAndNothingElse : Obligations.ExtWritesItsTargetAndNothingElse := by
  intro s p c v w
  refine ⟨fun hexists => ?_, fun q hq => getElem?_modify_other _ hq, fun P hP => ?_,
    fun q hq => getElem?_modify_other _ hq, fun habsent => modifyPlayer_of_le habsent _, ?_,
    fun ws ws' => applyExt_append ws ws' s⟩
  · rw [applyExt_cons, applyExt_nil, applyExtWrite_player, List.getElem?_set_self hexists]
  · refine ⟨P.setChannel c w, ?_, fun h => P.chan?_setChannel_same h w,
      fun d hd => P.chan?_setChannel_other hd w, P.setChannel_eq c w⟩
    rw [applyExt_cons, applyExt_nil, applyExtWrite_channel, modifyPlayer_players, List.getElem?_modify_eq, hP]
    rfl
  · rintro (habsent | hindex)
    · exact modifyPlayer_of_le habsent _
    · rw [applyExt_cons, applyExt_nil, applyExtWrite_channel, Player.setChannel_of_le hindex, modifyPlayer_id, id]

/-- One player write for each player of a file, from index `k` on. -/
def fileWrites : Nat → List Player → List ExtWrite
  | _, [] => []
  | k, P :: ps => .player (BitVec.ofNat 8 k) P :: fileWrites (k + 1) ps

theorem applyExt_fileWrites (ps : List Player) (k : Nat) (s : State) (hlength : k + ps.length = s.players.length)
    (hmax : s.players.length ≤ 256) :
    applyExt (fileWrites k ps) s = { s with players := s.players.take k ++ ps } := by
  induction ps generalizing k s with
  | nil =>
    have htake : s.players.take k = s.players := List.take_of_length_le (Nat.le_of_eq hlength.symm)
    rw [fileWrites, applyExt_nil, htake, List.append_nil]
  | cons P ps ih =>
    rw [List.length_cons] at hlength
    have hk : (BitVec.ofNat 8 k).toNat = k := by
      rw [BitVec.toNat_ofNat]
      omega
    have htake : (s.players.set k P).take (k + 1) = s.players.take k ++ [P] := by
      rw [List.take_add_one, List.take_set_of_le (Nat.le_refl k), List.getElem?_set_self (by omega)]
      rfl
    rw [fileWrites, applyExt_cons, applyExtWrite_player, hk,
      ih (k + 1) _ (by rw [List.length_set]; omega) (by rwa [List.length_set]), htake, List.append_assoc,
      List.singleton_append]

/-- Settles O58: write each player of the file in turn. -/
theorem extReachesEveryPlayerFile : Obligations.ExtReachesEveryPlayerFile := by
  intro s rest ps hlength hmax
  refine ⟨fileWrites 0 ps, ?_⟩
  rw [step_cons rfl]
  exact congrArg Host.Outcome.next
    (applyExt_fileWrites ps 0 { s with inputs := rest } (by rwa [Nat.zero_add]) (hlength ▸ hmax))

/-! ### The floor of a fade-out's duration (R145) -/

theorem clampDuration_of_lt_one {d : Word} (h : d.toInt < 1) : clampDuration d = clampDuration 1 := by
  rw [clampDuration_eq, if_pos h, clampDuration_eq, ite_self]

/-- Settles O40: the duration is read through the clamp only. -/
theorem fadeOutDurationHasFloorOne : Obligations.FadeOutDurationHasFloorOne := by
  intro s p d hd
  have hplayer : Player.fadeToZero d = Player.fadeToZero 1 := by
    funext P
    rw [Player.fadeToZero, Player.fadeToZero, clampDuration_of_lt_one hd]
  rw [fadeToZero, fadeToZero, hplayer]

end Sys2Proof.Machine
end

section

namespace Sys2Proof.Machine

/-! ### What `apply` reads: the sequencer registers and the parameters, nothing of the queue (R105) -/

/-- The part of the state that an effect reads and writes; the rest is as after RESET. -/
def State.sequencer (s : State) : State :=
  { State.resetWith 0 s.ticksPerBeat [] with soundMode := s.soundMode, players := s.players }

theorem players_of_sequencer {s t : State} (h : s.sequencer = t.sequencer) : s.players = t.players :=
  (congrArg State.players h :)

theorem soundMode_of_sequencer {s t : State} (h : s.sequencer = t.sequencer) : s.soundMode = t.soundMode :=
  (congrArg State.soundMode h :)

/-- What the effect leaves of the sequencer depends on the sequencer alone. -/
def ReadsSequencer (effect : State → State) : Prop := ∀ s, (effect s).sequencer = (effect s.sequencer).sequencer

theorem readsSequencer_id : ReadsSequencer id := fun _ => rfl

theorem readsSequencer_modifyPlayer (p : Byte) (f : Player → Player) : ReadsSequencer (modifyPlayer p f) :=
  fun _ => rfl

theorem readsSequencer_modifyChannel (p c : Byte) (f : Channel → Channel) : ReadsSequencer (modifyChannel p c f) :=
  fun _ => rfl

theorem readsSequencer_modifyAllPlayers (f : Player → Player) : ReadsSequencer (modifyAllPlayers f) := fun _ => rfl

theorem readsSequencer_runHook (answer : List Player → Nat → Player) : ReadsSequencer (runHook answer) :=
  fun _ => rfl

theorem readsSequencer_soundModeEffect (a : Args) : ReadsSequencer (soundModeEffect a) := fun _ => rfl

theorem readsSequencer_tempoEffect (a : Args) : ReadsSequencer (tempoEffect a) := fun _ => rfl

theorem readsSequencer_loadFadeInEffect (op : Byte) (a : Args) : ReadsSequencer (loadFadeInEffect op a) :=
  fun _ => rfl

theorem ReadsSequencer.dispatch {f g : State → State} {c : Prop} [Decidable c] (hf : ReadsSequencer f)
    (hg : ReadsSequencer g) : ReadsSequencer (fun s => if c then f s else g s) := by
  by_cases h : c
  · simpa only [if_pos h] using hf
  · simpa only [if_neg h] using hg

/-- A test that itself reads the sequencer alone. -/
theorem ReadsSequencer.gate {f : State → State} {test : State → Bool} (htest : ∀ s, test s = test s.sequencer)
    (hf : ReadsSequencer f) : ReadsSequencer (fun s => if test s then f s else s) := by
  intro s
  have hsame : test s.sequencer = test s := (htest s).symm
  cases h : test s with
  | true => simpa only [hsame, h, if_true] using hf s
  | false =>
    simp only [hsame, h, Bool.false_eq_true, if_false]
    rfl

theorem ReadsSequencer.gatedByPlayer {f : State → State} (hf : ReadsSequencer f) (a : Args) :
    ReadsSequencer (gatedByPlayer a f) := hf.gate (test := fun s => playerExists s a.target) fun _ => rfl

theorem ReadsSequencer.gatedByChannel {f : State → State} (hf : ReadsSequencer f) (a : Args) :
    ReadsSequencer (gatedByChannel a f) := hf.gate (test := fun s => channelGate s a) fun _ => rfl

theorem readsSequencer_stopPlayer (p : Byte) : ReadsSequencer (stopPlayer p) := fun _ => rfl

theorem readsSequencer_fadeToZero (p : Byte) (d : Word) : ReadsSequencer (fadeToZero p d) := fun _ => rfl

theorem readsSequencer_stopFadeEffect (a : Args) : ReadsSequencer (stopFadeEffect a) :=
  (readsSequencer_stopPlayer _).dispatch (readsSequencer_fadeToZero _ _)

theorem readsSequencer_applyGlobal (r : Rec) : ReadsSequencer (applyGlobal r) :=
  (readsSequencer_soundModeEffect _).dispatch <| (readsSequencer_modifyAllPlayers _).dispatch <|
    (readsSequencer_modifyAllPlayers _).dispatch <| (readsSequencer_runHook _).dispatch readsSequencer_id

theorem readsSequencer_applyManagement (r : Rec) : ReadsSequencer (applyManagement r) :=
  (readsSequencer_runHook _).dispatch <| (readsSequencer_loadFadeInEffect _ _).dispatch <|
    (readsSequencer_stopFadeEffect _).dispatch readsSequencer_id

theorem readsSequencer_applyParameter (r : Rec) : ReadsSequencer (applyParameter r) :=
  (readsSequencer_modifyPlayer _ _).dispatch <| (readsSequencer_modifyPlayer _ _).dispatch <|
    (readsSequencer_tempoEffect _).dispatch <| (readsSequencer_modifyPlayer _ _).dispatch readsSequencer_id

theorem readsSequencer_applyChannel (r : Rec) : ReadsSequencer (applyChannel r) :=
  (readsSequencer_modifyChannel _ _ _).dispatch <| (readsSequencer_modifyChannel _ _ _).dispatch <|
    (readsSequencer_modifyChannel _ _ _).dispatch <| (readsSequencer_modifyChannel _ _ _).dispatch <|
    (readsSequencer_modifyChannel _ _ _).dispatch <| (readsSequencer_modifyChannel _ _ _).dispatch <|
    (readsSequencer_modifyChannel _ _ _).dispatch readsSequencer_id

theorem readsSequencer_applyRecord (r : Rec) : ReadsSequencer (applyRecord r) :=
  (readsSequencer_applyGlobal r).dispatch <|
    ((readsSequencer_applyManagement r).gatedByPlayer r.toArgs).dispatch <|
    ((readsSequencer_applyParameter r).gatedByPlayer r.toArgs).dispatch <|
    (readsSequencer_applyChannel r).gatedByChannel r.toArgs

theorem applyRecord_congr (r : Rec) {s t : State} (h : s.sequencer = t.sequencer) :
    (applyRecord r s).sequencer = (applyRecord r t).sequencer := by
  rw [readsSequencer_applyRecord r s, h, ← readsSequencer_applyRecord r t]

/-! ### One STEP and one step of the whole drain (R104, R107) -/

/-- A STEP of an active drain: `apply` on the sequencer, and the slot consumed. -/
theorem exec_step_spec {s : State} (hactive : s.active = true) :
    ∃ t, exec .step s = .next t
      ∧ t.sequencer = (applyRecord (ringRecord s.ring s.rd) s).sequencer
      ∧ t.ring = clearOpcode s.ring s.rd
      ∧ t.rd = s.rd + 1
      ∧ t.rem = remAfterStep (endsDrain (ringRecord s.ring s.rd)) s.rem
      ∧ t.active = activeFor t.rem
      ∧ t.mbox = s.mbox := by
  refine ⟨_, exec_step_of_active hactive, ?_, rfl, rfl, rfl, rfl, rfl⟩
  rw [(keepsQueue_applyRecord _).eq s]
  rfl

theorem drain_succ (count : Nat) (slot : Byte) (s : State) :
    drain (count + 1) slot s =
      if endsDrain (ringRecord s.ring slot) then
        { applyRecord (ringRecord s.ring slot) s with ring := clearOpcode s.ring slot }
      else drain count (slot + 1)
        { applyRecord (ringRecord s.ring slot) s with ring := clearOpcode s.ring slot } := rfl

theorem stepTimes_succ {n : Nat} {s t : State} (h : exec .step s = .next t) :
    stepTimes (n + 1) s = stepTimes n t := by
  rw [stepTimes, h]

/-- Without a drain no STEP is a transition (R104). -/
theorem stepTimes_of_inactive {s : State} (h : s.active = false) (n : Nat) : stepTimes n s = .next s := by
  induction n with
  | zero => rfl
  | succ n ih => rw [stepTimes_succ (exec_step_of_inactive h), ih]

/-- STEP by STEP the machine follows the drain function: `d` is where that function stands, with the same ring and the
same sequencer. -/
theorem stepTimes_eq_drain (n : Nat) (s d : State) (hrem : s.rem.toNat = n) (hactive : s.active = activeFor s.rem)
    (hring : s.ring = d.ring) (hseq : s.sequencer = d.sequencer) :
    ∃ t, stepTimes n s = .next t ∧ t.active = false ∧ t.rem = 0 ∧ t.mbox = s.mbox
      ∧ t.ring = (drain n s.rd d).ring ∧ t.sequencer = (drain n s.rd d).sequencer := by
  induction n generalizing s d with
  | zero =>
    have hzero : s.rem = 0 := BitVec.eq_of_toNat_eq hrem
    rw [hzero, activeFor_zero] at hactive
    exact ⟨s, rfl, hactive, hzero, rfl, hring, hseq⟩
  | succ n ih =>
    have hrunning : s.active = true := by
      rw [hactive, activeFor_iff_toNat, hrem]
      exact Nat.succ_ne_zero n
    obtain ⟨t, hexec, htseq, htring, htrd, htrem, htactive, htmbox⟩ := exec_step_spec hrunning
    have happly := applyRecord_congr (ringRecord s.ring s.rd) hseq
    rw [stepTimes_succ hexec, drain_succ, ← hring]
    cases hends : endsDrain (ringRecord s.ring s.rd) with
    | true =>
      rw [hends, remAfterStep_true] at htrem
      rw [htrem, activeFor_zero] at htactive
      exact ⟨t, stepTimes_of_inactive htactive n, htactive, htrem, htmbox, htring, htseq.trans happly⟩
    | false =>
      rw [hends, remAfterStep_false] at htrem
      rw [if_neg Bool.false_ne_true, ← htrd, ← htmbox]
      exact ih t _ (by rw [htrem]; bv_omega) htactive htring (htseq.trans happly)

/-- Settles O20: POLL loads the range, and the STEPs follow the drain function along it. -/
theorem pollThenStepsIsTheWholeDrain : Obligations.PollThenStepsIsTheWholeDrain := by
  intro s m ms hidle hmbox
  obtain ⟨t, hsteps, hactive, hrem, htmbox, hring, hseq⟩ := stepTimes_eq_drain m.count.toNat
    { s with mbox := ms, rd := m.start, rem := m.count, active := activeFor m.count } s rfl rfl rfl rfl
  exact ⟨_, t, exec_poll_of_cons hidle hmbox, hsteps, hactive, hrem, htmbox, hring,
    players_of_sequencer hseq, soundMode_of_sequencer hseq⟩

/-! ### A consumed slot (R35, R109) -/

theorem applyRecord_of_consumed {r : Rec} (h : r.opcode = 0) : applyRecord r = id := by
  have hnothing : applyChannel r = id := by
    funext s
    rw [applyChannel, h]
    rfl
  rw [applyRecord_channel (show r.opcode ≤ 0x3F#8 by rw [h]; decide), hnothing, gatedByChannel_id]

theorem endsDrain_of_consumed {r : Rec} (h : r.opcode = 0) : endsDrain r = false :=
  endsDrain_eq_false (by rw [h]; decide)

theorem clearOpcode_of_consumed {m : Memory} {slot : Byte} (hwf : m.wf = true) (h : (ringRecord m slot).opcode = 0) :
    clearOpcode m slot = m := Memory.write_zero_of_read_zero _ hwf h

theorem slot_zero (slot : Byte) : slot + BitVec.ofNat 8 0 = slot := BitVec.add_zero slot

theorem slot_succ (slot : Byte) (k : Nat) :
    slot + 1 + BitVec.ofNat 8 k = slot + BitVec.ofNat 8 (k + 1) := by
  rw [BitVec.ofNat_add, BitVec.add_assoc, BitVec.add_comm 1]
  rfl

/-- Settles O22: a consumed slot is left as it is, one after the other. -/
theorem replayOfAConsumedRangeDoesNothing : Obligations.ReplayOfAConsumedRangeDoesNothing := by
  intro s slot count hwf hconsumed
  induction count generalizing slot with
  | zero => rfl
  | succ count ih =>
    have hfirst : (ringRecord s.ring slot).opcode = 0 := by
      simpa only [slot_zero] using hconsumed 0 (Nat.succ_pos count)
    have hrest : ∀ k < count, (ringRecord s.ring (slot + 1 + BitVec.ofNat 8 k)).opcode = 0 := fun k hk => by
      rw [slot_succ]
      exact hconsumed (k + 1) (Nat.succ_lt_succ hk)
    rw [drain_succ, endsDrain_of_consumed hfirst, applyRecord_of_consumed hfirst,
      clearOpcode_of_consumed hwf hfirst, if_neg Bool.false_ne_true]
    exact ih (slot + 1) hrest

end Sys2Proof.Machine
end

section

namespace Sys2Proof.Machine

/-! ### A run of ENQ (R100) -/

/-- The state an ENQ leaves. -/
def enqState (s : State) (r : Rec) : State :=
  { s with
    ring := ringStore s.ring s.wr r
    wr := s.wr + 1
    lap := lapAfterEnq (s.wr + 1) s.pub }

/-- The state a run of ENQ leaves. -/
def enqAll (cs : List Rec) (s : State) : State := cs.foldl enqState s

theorem enqAll_cons (r : Rec) (cs : List Rec) (s : State) : enqAll (r :: cs) s = enqAll cs (enqState s r) := rfl

theorem enqAll_concat (cs : List Rec) (r : Rec) (s : State) :
    enqAll (cs ++ [r]) s = enqState (enqAll cs s) r := List.foldl_concat ..

/-- A run of ENQ writes the ring, `wr` and `lap` alone (R37). -/
theorem enqAll_frame (cs : List Rec) (s : State) :
    enqAll cs s = { s with ring := (enqAll cs s).ring, wr := (enqAll cs s).wr, lap := (enqAll cs s).lap } := by
  induction cs generalizing s with
  | nil => rfl
  | cons r cs ih => rw [enqAll_cons, ih (enqState s r), enqState]

theorem enqAll_wr (cs : List Rec) (s : State) : (enqAll cs s).wr = s.wr + BitVec.ofNat 8 cs.length := by
  induction cs generalizing s with
  | nil => exact (slot_zero s.wr).symm
  | cons r cs ih => rw [enqAll_cons, ih, List.length_cons, ← slot_succ, enqState]

/-- `lap` compares the cursors after the last ENQ (R24). -/
theorem enqAll_lap {cs : List Rec} (hne : cs ≠ []) (s : State) :
    (enqAll cs s).lap = decide ((enqAll cs s).wr = s.pub) := by
  obtain ⟨init, last, rfl⟩ := List.eq_nil_or_concat cs |>.resolve_left hne
  rw [List.concat_eq_append, enqAll_concat, enqState, enqAll_frame init s]
  rfl

/-- A step performs the event at the head of the schedule. -/
theorem step_event (s : State) (e : Event) (rest : List Event) :
    step { s with inputs := e :: rest } = perform e { s with inputs := rest } := rfl

/-- The machine performs a run of ENQ, whatever the schedule holds after it. -/
theorem run_enqAll (cs : List Rec) (rest : List Event) (n : Nat) (s : State) :
    Host.Core.run Sys2Proof.core (cs.length + n) { s with inputs := cs.map Event.enq ++ rest }
      = Host.Core.run Sys2Proof.core n { enqAll cs s with inputs := rest } := by
  induction cs generalizing s with
  | nil => rw [List.length_nil, Nat.zero_add]; rfl
  | cons r cs ih =>
    rw [List.length_cons, Nat.add_right_comm, enqAll_cons, ← ih]
    exact run_next (step_event s (.enq r) _)

/-- From nothing pending the cursors meet exactly after whole rings (R24). -/
theorem add_ofNat_eq_self_iff (slot : Byte) (n : Nat) : slot + BitVec.ofNat 8 n = slot ↔ n % 256 = 0 := by
  rw [← BitVec.toNat_inj, BitVec.toNat_add, BitVec.toNat_ofNat]
  have := slot.isLt
  omega

theorem enqAll_lap_iff (cs : List Rec) {s : State} (hpub : s.wr = s.pub) (hlap : s.lap = false) :
    (enqAll cs s).lap = true ↔ cs.length ≠ 0 ∧ cs.length % 256 = 0 := by
  by_cases hne : cs = []
  · subst hne
    simp [enqAll, hlap]
  · have hlength : cs.length ≠ 0 := fun h => hne (List.length_eq_zero_iff.mp h)
    rw [enqAll_lap hne, decide_eq_true_iff, enqAll_wr, ← hpub, add_ofNat_eq_self_iff]
    exact (and_iff_right hlength).symm

/-- Settles O23: the run of ENQ is `enqAll`, whose `lap` compares the cursors. -/
theorem lapCountsWholeRings : Obligations.LapCountsWholeRings := by
  intro s cs hpub hlap
  have hrun := run_enqAll cs [] 0 s
  rw [List.append_nil] at hrun
  have hpubKept : (enqAll cs s).pub = s.pub := by rw [enqAll_frame]
  refine ⟨{ enqAll cs s with inputs := [] }, hrun, enqAll_lap_iff cs hpub hlap, fun hfull => ?_, hpubKept, _,
    exec_pub _, rfl, fun hroom => send_of_lt hroom _⟩
  obtain ⟨hne, -⟩ := (enqAll_lap_iff cs hpub hlap).mp hfull
  have hlast : (enqAll cs s).lap = decide ((enqAll cs s).wr = s.pub) :=
    enqAll_lap (fun h => hne (List.length_eq_zero_iff.mpr h)) s
  exact (of_decide_eq_true (hlast.symm.trans hfull)).trans hpubKept.symm

/-! ### The 257th record (R73 (a), R234) -/

/-- The state a PUB leaves (R101). -/
def pubState (s : State) : State :=
  { s with
    hwm := hwmAfterPub s.hwm (pendingDepth s.wr s.pub)
    mbox := send s.mbox (pubMsg s)
    pub := s.wr
    lap := false }

theorem step_pub (s : State) (rest : List Event) :
    step { s with inputs := .pub :: rest } = .next { pubState s with inputs := rest } := rfl

/-- Settles O24: after 256 ENQ `wr` is where it began, so the next ENQ stores there. -/
theorem the257thRecordOverwritesTheFirst : Obligations.The257thRecordOverwritesTheFirst := by
  intro s cs r hlength hpub hlap hmbox
  have hwrap : (enqAll cs s).wr = s.wr := by
    rw [enqAll_wr, hlength]
    exact BitVec.add_zero s.wr
  have hshort : decide (s.wr + 1 = s.pub) = false := by
    rw [decide_eq_false_iff_not, ← hpub]
    bv_omega
  have hlast : enqAll (cs ++ [r]) s = { s with
      ring := ringStore (enqAll cs s).ring s.wr r
      wr := s.wr + 1
      lap := false } := by
    rw [enqAll_concat, enqState, hwrap, enqAll_frame cs s, lapAfterEnq, hshort]
  have hrun := run_enqAll (cs ++ [r]) [.pub] 1 s
  rw [List.length_append, hlength, List.map_append, List.append_assoc, hlast] at hrun
  refine ⟨_, hrun.trans (run_next (step_pub _ [])), ?_, rfl, rfl, ?_⟩
  · exact ringRecord_ringStore_same _ s.wr r
  · simp [pubState, send, pubMsg, hmbox, hpub]

/-! ### A batch in the ring (R100, R108) -/

/-- The records stand in the slots from `slot` on. -/
def HoldsBatch (m : Memory) (slot : Byte) (cs : List Rec) : Prop :=
  ∀ (k : Nat) (h : k < cs.length), ringRecord m (slot + BitVec.ofNat 8 k) = cs[k]

theorem HoldsBatch.head {m : Memory} {slot : Byte} {r : Rec} {cs : List Rec} (h : HoldsBatch m slot (r :: cs)) :
    ringRecord m slot = r := by
  have h0 := h 0 (Nat.succ_pos _)
  rwa [slot_zero] at h0

theorem HoldsBatch.tail {m : Memory} {slot : Byte} {r : Rec} {cs : List Rec} (h : HoldsBatch m slot (r :: cs)) :
    HoldsBatch m (slot + 1) cs := by
  intro k hk
  rw [slot_succ]
  exact h (k + 1) (Nat.succ_lt_succ hk)

/-- Two slots of one ring, less than 256 apart, differ. -/
theorem add_ofNat_ne_self {slot : Byte} {k : Nat} (hpos : 0 < k) (hlt : k < 256) :
    slot + BitVec.ofNat 8 k ≠ slot := by
  rw [ne_eq, add_ofNat_eq_self_iff]
  omega

theorem HoldsBatch.clearOpcode {m : Memory} {slot : Byte} {r : Rec} {cs : List Rec}
    (h : HoldsBatch m slot (r :: cs)) (hmax : cs.length < 256) :
    HoldsBatch (clearOpcode m slot) (slot + 1) cs := by
  intro k hk
  rw [ringRecord_clearOpcode_other, h.tail k hk]
  rw [slot_succ]
  exact add_ofNat_ne_self (Nat.succ_pos k) (by omega)

theorem enqAll_ring_other {cs : List Rec} {s : State} {slot : Byte}
    (h : ∀ k < cs.length, slot ≠ s.wr + BitVec.ofNat 8 k) :
    ringRecord (enqAll cs s).ring slot = ringRecord s.ring slot := by
  induction cs generalizing s with
  | nil => rfl
  | cons r cs ih =>
    have hfirst : slot ≠ s.wr := by
      have h0 := h 0 (Nat.succ_pos _)
      rwa [slot_zero] at h0
    have hrest : ∀ k < cs.length, slot ≠ (enqState s r).wr + BitVec.ofNat 8 k := fun k hk => by
      rw [enqState, slot_succ]
      exact h (k + 1) (Nat.succ_lt_succ hk)
    rw [enqAll_cons, ih hrest, enqState, ringRecord_ringStore_other _ _ hfirst]

/-- A batch of at most a whole ring is stored without loss. -/
theorem holdsBatch_enqAll {cs : List Rec} (hmax : cs.length ≤ 256) (s : State) :
    HoldsBatch (enqAll cs s).ring s.wr cs := by
  induction cs generalizing s with
  | nil => exact fun k hk => absurd hk (Nat.not_lt_zero k)
  | cons r cs ih =>
    rw [List.length_cons] at hmax
    intro k hk
    cases k with
    | zero =>
      rw [slot_zero, enqAll_cons, enqAll_ring_other]
      · exact ringRecord_ringStore_same s.ring s.wr r
      · intro j hj
        rw [enqState, slot_succ]
        exact (add_ofNat_ne_self (Nat.succ_pos j) (by omega)).symm
    | succ k =>
      rw [← slot_succ]
      exact ih (Nat.le_of_succ_le hmax) (enqState s r) k (Nat.lt_of_succ_lt_succ hk)

/-! ### The drain of a batch (R107, R108) -/

/-- The records applied in order, as the document's property counts them. -/
def applyAll (cs : List Rec) (s : State) : State := cs.foldl (fun u r => applyRecord r u) s

theorem ringRecord_clearOpcode_consumed {m : Memory} {slot slot' : Byte}
    (h : slot = slot' ∨ (ringRecord m slot).opcode = 0) : (ringRecord (clearOpcode m slot') slot).opcode = 0 := by
  by_cases heq : slot = slot'
  · rw [heq, ringRecord_clearOpcode_same]
  · rw [ringRecord_clearOpcode_other _ heq]
    exact h.resolve_left heq

/-- A consumed slot stays consumed. -/
theorem drain_keeps_consumed {slot : Byte} (count : Nat) (start : Byte) {s : State}
    (h : (ringRecord s.ring slot).opcode = 0) : (ringRecord (drain count start s).ring slot).opcode = 0 := by
  induction count generalizing start s with
  | zero => exact h
  | succ count ih =>
    have hnext := ringRecord_clearOpcode_consumed (slot' := start) (.inr h)
    rw [drain_succ]
    split
    · exact hnext
    · exact ih (start + 1) hnext

/-- The drain of a batch, no record of it global but perhaps the last, applies each record once, in order, and
consumes every slot. -/
theorem drain_batch {cs : List Rec} {slot : Byte} {s u : State} (hmax : cs.length ≤ 256)
    (hbatch : HoldsBatch s.ring slot cs) (hends : ∀ r ∈ cs.dropLast, endsDrain r = false)
    (hseq : s.sequencer = u.sequencer) :
    (drain cs.length slot s).sequencer = (applyAll cs u).sequencer
      ∧ ∀ k < cs.length, (ringRecord (drain cs.length slot s).ring (slot + BitVec.ofNat 8 k)).opcode = 0 := by
  induction cs generalizing slot s u with
  | nil => exact ⟨hseq, fun k hk => absurd hk (Nat.not_lt_zero k)⟩
  | cons r cs ih =>
    rw [List.length_cons] at hmax ⊢
    have hstep : ({ applyRecord r s with ring := clearOpcode s.ring slot } : State).sequencer
        = (applyRecord r u).sequencer := applyRecord_congr r hseq
    have hgo : drain (cs.length + 1) slot s
        = drain cs.length (slot + 1) { applyRecord r s with ring := clearOpcode s.ring slot } := by
      rw [drain_succ, hbatch.head]
      cases hlast : cs with
      | nil => exact ite_self _
      | cons r' cs' =>
        rw [hends r (by rw [hlast, List.dropLast_cons_cons]; exact List.mem_cons_self)]
        rfl
    have hendsTail : ∀ x ∈ cs.dropLast, endsDrain x = false := fun x hx => by
      have hne : cs ≠ [] := fun h => by rw [h] at hx; exact absurd hx List.not_mem_nil
      exact hends x (by rw [List.dropLast_cons_of_ne_nil hne]; exact List.mem_cons_of_mem r hx)
    obtain ⟨hfinal, hconsumed⟩ := ih (s := { applyRecord r s with ring := clearOpcode s.ring slot })
      (Nat.le_of_succ_le hmax) (hbatch.clearOpcode (by omega)) hendsTail hstep
    rw [hgo]
    refine ⟨hfinal, fun k hk => ?_⟩
    cases k with
    | zero =>
      rw [slot_zero]
      exact drain_keeps_consumed _ _ (ringRecord_clearOpcode_consumed (.inl rfl))
    | succ k =>
      rw [← slot_succ]
      exact hconsumed k (Nat.lt_of_succ_lt_succ hk)

/-! ### The whole run (R108) -/

/-- No transaction of the queue reads the schedule. -/
theorem exec_step_inputs {s t : State} (es : List Event) (h : exec .step s = .next t) :
    exec .step { s with inputs := es } = .next { t with inputs := es } := by
  by_cases hactive : s.active = true
  · rw [exec_step_of_active hactive] at h
    cases h
    have hseq := applyRecord_congr (ringRecord s.ring s.rd) (s := { s with inputs := es }) (t := s) rfl
    rw [exec_step_of_active (s := { s with inputs := es }) hactive, players_of_sequencer hseq,
      soundMode_of_sequencer hseq]
  · have hidle : s.active = false := Bool.eq_false_iff.mpr hactive
    rw [exec_step_of_inactive hidle] at h
    cases h
    exact exec_step_of_inactive (s := { s with inputs := es }) hidle

/-- A schedule of STEPs runs as many STEP transactions. -/
theorem run_steps {n : Nat} {s t : State} (h : stepTimes n s = .next t) :
    Host.Core.run Sys2Proof.core n { s with inputs := List.replicate n .step } = .next { t with inputs := [] } := by
  induction n generalizing s with
  | zero =>
    cases h
    rfl
  | succ n ih =>
    obtain ⟨u, hu⟩ := exec_answers .step s
    rw [stepTimes_succ hu] at h
    have hstep : step { s with inputs := List.replicate (n + 1) .step } =
        .next { u with inputs := List.replicate n .step } :=
      (stepTransactionRunsTheFetchedCommand _).symm.trans (exec_step_inputs (s := s) _ hu)
    exact (run_next hstep).trans (ih h)

/-- The state a POLL of the message `m` leaves (R103). -/
def pollState (m : Msg) (ms : List Msg) (s : State) : State :=
  { s with
    mbox := ms
    rd := m.start
    rem := m.count
    active := activeFor m.count }

theorem step_poll {s : State} {m : Msg} {ms : List Msg} (rest : List Event) (hidle : s.active = false)
    (hmbox : s.mbox = m :: ms) :
    step { s with inputs := .poll :: rest } = .next { pollState m ms s with inputs := rest } :=
  exec_poll_of_cons (s := { s with inputs := rest }) hidle hmbox

/-- The message of a batch covers the batch (R24, R87). -/
theorem pubMsg_enqAll_count {cs : List Rec} {s : State} (hmax : cs.length ≤ 256) (hpub : s.wr = s.pub)
    (hlap : s.lap = false) : (pubMsg (enqAll cs s)).count.toNat = cs.length := by
  have hfull : (pubMsg (enqAll cs s)).full = true ↔ cs.length ≠ 0 ∧ cs.length % 256 = 0 := enqAll_lap_iff cs hpub hlap
  have hstop : (pubMsg (enqAll cs s)).stop = s.wr + BitVec.ofNat 8 cs.length := enqAll_wr cs s
  have hstart : (pubMsg (enqAll cs s)).start = s.wr := by
    rw [pubMsg, enqAll_frame cs s]
    exact hpub.symm
  rw [Msg.count_toNat, hstop, hstart]
  by_cases hwhole : cs.length ≠ 0 ∧ cs.length % 256 = 0
  · rw [if_pos (hfull.mpr hwhole)]
    omega
  · rw [if_neg (mt hfull.mp hwhole), BitVec.toNat_add, BitVec.toNat_ofNat]
    have := s.wr.isLt
    omega

/-- Settles O21: ENQ by ENQ the ring holds the batch, PUB and POLL load its range, and the STEPs follow the drain of
it. -/
theorem batchIsAppliedExactlyOnceInOrder : Obligations.BatchIsAppliedExactlyOnceInOrder := by
  intro s cs hmax hpub hlap hmbox hidle hends
  have hkept := enqAll_frame cs s
  have hcount := pubMsg_enqAll_count hmax hpub hlap
  have hmboxKept : (enqAll cs s).mbox = [] := by rw [hkept, hmbox]
  have hidleKept : (enqAll cs s).active = false := by rw [hkept, hidle]
  have hstart : (pubMsg (enqAll cs s)).start = s.wr := by
    rw [pubMsg, hkept, hpub]
  have hseq : (enqAll cs s).sequencer = s.sequencer := by
    rw [hkept]
    rfl
  obtain ⟨hfinal, hconsumed⟩ := drain_batch hmax (holdsBatch_enqAll hmax s) hends hseq
  have hsent : (pubState (enqAll cs s)).mbox = [pubMsg (enqAll cs s)] := by
    rw [pubState, hmboxKept]
    rfl
  obtain ⟨t, hsteps, hactive, -, htmbox, htring, htseq⟩ := stepTimes_eq_drain cs.length
    (pollState (pubMsg (enqAll cs s)) [] (pubState (enqAll cs s))) (enqAll cs s) hcount rfl rfl rfl
  rw [show (pollState (pubMsg (enqAll cs s)) [] (pubState (enqAll cs s))).rd = s.wr from hstart] at htring htseq
  refine ⟨{ t with inputs := [] }, ?_, players_of_sequencer (htseq.trans hfinal),
    soundMode_of_sequencer (htseq.trans hfinal), fun k hk => ?_, hactive, htmbox⟩
  · rw [show 2 * cs.length + 2 = cs.length + (cs.length + 2) by omega, List.append_assoc, run_enqAll]
    exact (run_next (step_pub (enqAll cs s) _)).trans
      ((run_next (step_poll (s := pubState (enqAll cs s)) _ hidleKept hsent)).trans (run_steps hsteps))
  · rw [htring]
    exact hconsumed k hk

end Sys2Proof.Machine
end

section

namespace Sys2Proof.Machine

/-! ### The fields of a binary32 pattern -/

theorem f32Exponent_eq (x : Word) : f32Exponent x = x.toNat / 2 ^ 23 % 2 ^ 8 := by
  rw [f32Exponent, BitVec.extractLsb'_toNat, Nat.shiftRight_eq_div_pow]

theorem f32Fraction_eq (x : Word) : f32Fraction x = x.toNat % 2 ^ 23 := by
  rw [f32Fraction, BitVec.extractLsb'_toNat, Nat.shiftRight_zero]

theorem f32Exponent_lt (x : Word) : f32Exponent x < 256 := BitVec.isLt _

theorem f32Fraction_lt (x : Word) : f32Fraction x < 2 ^ 23 := BitVec.isLt _

theorem f32Pattern_toNat (neg : Bool) {magnitude : Nat} (h : magnitude < 2 ^ 31) :
    (f32Pattern neg magnitude).toNat = neg.toNat * 2 ^ 31 + magnitude := by
  rw [f32Pattern, BitVec.toNat_append, BitVec.toNat_ofBool, BitVec.toNat_ofNat, Nat.mod_eq_of_lt h,
    ← Nat.shiftLeft_add_eq_or_of_lt h, Nat.shiftLeft_eq]

/-- A pattern is its sign, its exponent and its fraction. -/
theorem f32Pattern_fields (x : Word) : f32Pattern (f32Sign x) (f32Exponent x * 2 ^ 23 + f32Fraction x) = x := by
  have hexp := f32Exponent_lt x
  have hfrac := f32Fraction_lt x
  have hx := x.isLt
  refine BitVec.eq_of_toNat_eq ?_
  rw [f32Pattern_toNat _ (by omega), f32Exponent_eq, f32Fraction_eq, f32Sign, BitVec.msb_eq_decide]
  by_cases hmsb : 2 ^ 31 ≤ x.toNat
  · simp only [Nat.add_one_sub_one, hmsb, decide_true, Bool.toNat_true]
    omega
  · simp only [Nat.add_one_sub_one, hmsb, decide_false, Bool.toNat_false]
    omega

/-! ### Exact quotients are not rounded (R145) -/

theorem roundNearestEven_mul (q : Nat) {d : Nat} (hd : 0 < d) : roundNearestEven (q * d) d = q := by
  have hmod : q * d % d = 0 := Nat.mul_mod_left q d
  rw [roundNearestEven, hmod, Nat.mul_div_cancel q hd, if_neg]
  omega

/-- The significand `q` at scale `k`, when it is exact. -/
theorem f32RoundMagnitude_exact {n d k q : Nat} (hd : 0 < d) (hexact : n * 2 ^ 149 = q * (d * 2 ^ k))
    (hscale : Nat.log2 (n * 2 ^ 149 / d) - 23 = k) :
    f32RoundMagnitude n d = min (k * 2 ^ 23 + q) f32InfMagnitude := by
  have hpos : 0 < d * 2 ^ k := Nat.mul_pos hd (Nat.two_pow_pos k)
  rw [f32RoundMagnitude, hscale, hexact, roundNearestEven_mul q hpos]

theorem f32RoundMagnitude_zero {d : Nat} (hd : 0 < d) : f32RoundMagnitude 0 d = 0 := by
  rw [f32RoundMagnitude_exact (k := 0) (q := 0) hd (by rw [Nat.zero_mul, Nat.zero_mul])
    (by rw [Nat.zero_mul, Nat.zero_div]; rfl)]
  rfl

/-- The one significand in 24 bits that a nonzero exponent leaves, scaled: its highest bit is the hidden bit. -/
theorem log2_scaled {f s : Nat} (hf : f < 2 ^ 23) : Nat.log2 ((f + 2 ^ 23) * 2 ^ s) = 23 + s := by
  have hpos : 0 < 2 ^ s := Nat.two_pow_pos s
  rw [Nat.log2_eq_iff (Nat.mul_ne_zero (by omega) hpos.ne'), Nat.add_right_comm, Nat.pow_add, Nat.pow_add]
  exact ⟨Nat.mul_le_mul_right _ (by omega), Nat.mul_lt_mul_of_pos_right (by omega) hpos⟩

theorem log2_fraction {f : Nat} (hf : f < 2 ^ 23) : Nat.log2 f - 23 = 0 := by
  by_cases h : f = 0
  · rw [h]
    rfl
  · have : Nat.log2 f < 23 := (Nat.log2_lt h).mpr hf
    omega

/-- Dividing a finite magnitude by 1.0, whose significand is `2 ^ 23` and whose scale is 126. -/
theorem f32RoundMagnitude_div_one {x : Word} (hfinite : f32Exponent x ≠ 255) :
    f32RoundMagnitude (f32Mantissa x * 2 ^ f32Scale x) (2 ^ 23 * 2 ^ 126)
      = f32Exponent x * 2 ^ 23 + f32Fraction x := by
  have hexp := f32Exponent_lt x
  have hfrac := f32Fraction_lt x
  have hpos : 0 < 2 ^ 23 * 2 ^ 126 := by decide
  have hquotient (n : Nat) : n * 2 ^ 149 / (2 ^ 23 * 2 ^ 126) = n := Nat.mul_div_cancel n hpos
  rw [f32Mantissa, f32Scale]
  by_cases hsub : f32Exponent x = 0
  · rw [if_pos hsub, hsub, f32RoundMagnitude_exact (k := 0) (q := f32Fraction x) hpos (by ring)
      (by rw [hquotient, Nat.zero_sub, Nat.pow_zero, Nat.mul_one, log2_fraction hfrac]), f32InfMagnitude]
    omega
  · rw [if_neg hsub, f32RoundMagnitude_exact (k := f32Exponent x - 1) (q := f32Fraction x + 2 ^ 23) hpos (by ring)
      (by rw [hquotient, log2_scaled hfrac, Nat.add_sub_cancel_left]), f32InfMagnitude]
    omega

/-! ### The special operands -/

theorem f32IsNaN_eq_false {x : Word} (h : f32Exponent x ≠ 255) : f32IsNaN x = false := by
  simp [f32IsNaN, h]

theorem f32IsInf_eq_false {x : Word} (h : f32Exponent x ≠ 255) : f32IsInf x = false := by
  simp [f32IsInf, h]

theorem f32Mantissa_pos {x : Word} (h : f32IsZero x = false) : 0 < f32Mantissa x := by
  by_cases hsub : f32Exponent x = 0
  · have hfrac : f32Fraction x ≠ 0 := by simpa [f32IsZero, hsub] using h
    rw [f32Mantissa, if_pos hsub]
    exact Nat.pos_of_ne_zero hfrac
  · rw [f32Mantissa, if_neg hsub]
    exact Nat.add_pos_right _ (by decide)

/-- Division of one number by another that is neither zero nor infinite. -/
theorem f32Div_finite {x y : Word} (hx : f32Exponent x ≠ 255) (hy : f32Exponent y ≠ 255)
    (hzero : f32IsZero y = false) :
    f32Div x y = f32Pattern (f32Sign x != f32Sign y)
      (f32RoundMagnitude (f32Mantissa x * 2 ^ f32Scale x) (f32Mantissa y * 2 ^ f32Scale y)) := by
  simp [f32Div, f32IsNaN_eq_false hx, f32IsNaN_eq_false hy, f32IsInf_eq_false hx, f32IsInf_eq_false hy, hzero]

theorem f32Div_inf {x y : Word} (hx : f32IsInf x = true) (hy : f32Exponent y ≠ 255) (hnan : f32IsNaN x = false)
    (hzero : f32IsZero x = false) :
    f32Div x y = f32Pattern (f32Sign x != f32Sign y) f32InfMagnitude := by
  simp [f32Div, hnan, f32IsNaN_eq_false hy, hx, f32IsInf_eq_false hy, hzero]

/-- The fields of 1.0. -/
theorem f32_one_exponent : f32Exponent 0x3F800000 = 127 := by decide

theorem f32_one_mantissa : f32Mantissa 0x3F800000 = 2 ^ 23 := by decide

theorem f32_one_scale : f32Scale 0x3F800000 = 126 := by decide

theorem f32_one_sign : f32Sign 0x3F800000 = false := by decide

/-- Settles O41: a finite quotient is exact, and an infinity is kept. -/
theorem divisionByOneIsExact : Obligations.DivisionByOneIsExact := by
  intro x hnan
  have hone : f32Exponent 0x3F800000 ≠ 255 := by rw [f32_one_exponent]; decide
  by_cases hfinite : f32Exponent x = 255
  · have hfrac : f32Fraction x = 0 := by
      simpa [f32IsNaN, hfinite] using hnan
    rw [f32Div_inf (by simp [f32IsInf, hfinite, hfrac]) hone hnan (by simp [f32IsZero, hfinite]), f32_one_sign,
      Bool.bne_false]
    have hfields := f32Pattern_fields x
    rwa [hfinite, hfrac] at hfields
  · rw [f32Div_finite hfinite hone (by decide), f32_one_mantissa, f32_one_scale, f32_one_sign,
      f32RoundMagnitude_div_one hfinite, Bool.bne_false, f32Pattern_fields]

/-- NUM4: zero divided by a finite positive number. -/
theorem f32Div_zero {y : Word} (hsign : y.msb = false) (hne : y ≠ 0) (hlt : y < 0x7F800000#32) :
    f32Div 0x00000000 y = 0x00000000 := by
  have hnat : y.toNat < 0x7F800000 := hlt
  have hexp : f32Exponent y ≠ 255 := by
    rw [f32Exponent_eq]
    omega
  have hzero : f32IsZero y = false := by
    have hpos : y.toNat ≠ 0 := BitVec.toNat_ne_iff_ne.mpr hne
    simp only [f32IsZero, f32Exponent_eq, f32Fraction_eq, Bool.and_eq_false_iff, decide_eq_false_iff_not]
    omega
  have hmagnitude : 0 < f32Mantissa y * 2 ^ f32Scale y := Nat.mul_pos (f32Mantissa_pos hzero) (Nat.two_pow_pos _)
  rw [f32Div_finite (by decide) hexp hzero, show f32Mantissa 0x00000000 = 0 by decide, Nat.zero_mul,
    f32RoundMagnitude_zero hmagnitude, f32Sign, f32Sign, hsign]
  decide

/-- Settles O42: the named values by computing, and NUM4. -/
theorem namedNumericProperties : Obligations.NamedNumericProperties :=
  ⟨by decide, by decide, by decide, fun _ => f32Div_zero, by decide, by decide⟩

end Sys2Proof.Machine
end
